-- ==== Sys2Proof/Word.lean ====
section
/-! DEFINITION. The words of the MM4001 core and their plainest arithmetic (spec 00_scope.md R1, R2). -/

namespace Sys2Proof

/-- A byte: an instruction, a Data or Program byte, and every register cell but PC (R11). -/
abbrev Byte := BitVec 8

/-- A nibble: an opcode, the low field L, an immediate (glossary of 00_scope.md). -/
abbrev Nibble := BitVec 4

/-- A 2-bit instruction field, E1 or E2 (R57). -/
abbrev Pair := BitVec 2

/-- An address of Program or of Data, 0..255 (R37). -/
abbrev Addr := BitVec 8

/-- `trunc8(v) = v mod 256`, the non-negative remainder of an exact integer (R2). -/
def trunc8 (v : Int) : Byte := BitVec.ofInt 8 v

/-- `zext_8(v)`: a nibble read as an unsigned byte (R2). -/
def zext8 (v : Nibble) : Byte := v.setWidth 8

end Sys2Proof
end

