-- ==== Sys2Proof/Syntax.lean ====
section
/-! DEFINITION. The instructions of the MM4001 core as syntax: one constructor of `Instr` per row of
spec/opcode_table.json, in the table's order. An operand that the hardware ignores (R59) is kept in its
constructor, so that decoding loses no bit of the byte; no meaning reads it. -/

namespace Sys2Proof

/-- What a 2-bit register-selector field names (R13, R61). FLG, PC and SP cannot be selected. -/
inductive Sel where
  | a | d | pl | ph
deriving DecidableEq, Repr

/-- The auto-index mode of STO and LOD (R44, R62). Mode 3 is unassigned and acts as none. -/
inductive AutoIndex where
  | keep | postInc | postDec | unassigned
deriving DecidableEq, Repr

/-- The parameter FLAG_INDEX_MODE: how JIT and JIF read their flag index (R65). -/
inductive FlagIndexMode where
  | position | bitmask
deriving DecidableEq, Repr

/-- The flag index L of JIT or JIF together with the way it is read (R65). The way is not in the
instruction byte: the decoder takes it from the machine's FLAG_INDEX_MODE. -/
inductive FlagIndex where
  /-- test bit L of FLG -/
  | position (L : Nibble)
  /-- test whether FLG AND L is not 0 -/
  | bitmask (L : Nibble)
deriving DecidableEq, Repr

/-- The sixteen opcodes the source names (R66), in the order of the reference assignment (R67). -/
inductive Opcode where
  | nop | mov | ina | sto | lod | alu | jit | jif
  | push | pop | tak | prn | cls | hlt | trp | res
deriving DecidableEq, Repr

/-- The sixteen ALU operations (R64), in the order of the reference assignment. -/
inductive AluOp where
  | add | sub | inc | dec | cmp | not | and | nand
  | or | nor | xor | xnor | shl | shr | rol | ror
deriving DecidableEq, Repr

/-- The instructions, one constructor per row of the opcode table. -/
inductive Instr where
  /-- no operation; `x` is ignored (R73) -/
  | nop (x : Nibble)
  /-- copy register `rs` to `rd` (R75) -/
  | mov (rd rs : Sel)
  /-- load a 4-bit immediate into A (R74) -/
  | ina (imm : Nibble)
  /-- store `rs` at the pointer, then auto-index: the mode is E1, the register E2 (R76) -/
  | sto (m : AutoIndex) (rs : Sel)
  /-- load `rd` from the pointer, then auto-index: the register is E1, the mode E2 (R77) -/
  | lod (rd : Sel) (m : AutoIndex)
  /-- A = (A + D) mod 16, with Carry (R82) -/
  | add
  /-- A = (A - D) mod 16, with Borrow (R83) -/
  | sub
  /-- A = (A + 1) mod 16, with Carry (R84) -/
  | inc
  /-- A = (A - 1) mod 16, with Borrow (R85) -/
  | dec
  /-- compare A with D, setting Greater and Equal (R86) -/
  | cmp
  /-- A = complement of A (R87) -/
  | not
  /-- A = A AND D (R88) -/
  | and
  /-- A = complement of (A AND D) (R89) -/
  | nand
  /-- A = A OR D (R90) -/
  | or
  /-- A = complement of (A OR D) (R91) -/
  | nor
  /-- A = A XOR D (R92) -/
  | xor
  /-- A = complement of (A XOR D) (R93) -/
  | xnor
  /-- A = A << D (R94) -/
  | shl
  /-- A = A >> D, logical (R95) -/
  | shr
  /-- rotate A left by D within a nibble, unmasked (R96) -/
  | rol
  /-- rotate A right by D within a nibble, unmasked (R97) -/
  | ror
  /-- jump if the indexed flag is set (R99) -/
  | jit (f : FlagIndex)
  /-- jump if the indexed flag is clear (R100) -/
  | jif (f : FlagIndex)
  /-- reserved, a no-op (R103) -/
  | push (x : Nibble)
  /-- reserved, a no-op (R104) -/
  | pop (x : Nibble)
  /-- reserved, a no-op (R105) -/
  | tak (x : Nibble)
  /-- reserved, a no-op (R106) -/
  | prn (x : Nibble)
  /-- reserved, a no-op (R107) -/
  | cls (x : Nibble)
  /-- stop the loop; `x` is ignored (R101) -/
  | hlt (x : Nibble)
  /-- reserved, a no-op (R108) -/
  | trp (x : Nibble)
  /-- reserved, a no-op (R109) -/
  | res (x : Nibble)
deriving DecidableEq, Repr

/-- The opcode an instruction is written under (R59); the sixteen ALU operations share one (R78). -/
def Instr.opcode : Instr → Opcode
  | .nop _ => .nop
  | .mov _ _ => .mov
  | .ina _ => .ina
  | .sto _ _ => .sto
  | .lod _ _ => .lod
  | .add => .alu
  | .sub => .alu
  | .inc => .alu
  | .dec => .alu
  | .cmp => .alu
  | .not => .alu
  | .and => .alu
  | .nand => .alu
  | .or => .alu
  | .nor => .alu
  | .xor => .alu
  | .xnor => .alu
  | .shl => .alu
  | .shr => .alu
  | .rol => .alu
  | .ror => .alu
  | .jit _ => .jit
  | .jif _ => .jif
  | .push _ => .push
  | .pop _ => .pop
  | .tak _ => .tak
  | .prn _ => .prn
  | .cls _ => .cls
  | .hlt _ => .hlt
  | .trp _ => .trp
  | .res _ => .res

/-- The instruction of an ALU operation (R78): it has no operand, A and D are implied. -/
def AluOp.instr : AluOp → Instr
  | .add => .add
  | .sub => .sub
  | .inc => .inc
  | .dec => .dec
  | .cmp => .cmp
  | .not => .not
  | .and => .and
  | .nand => .nand
  | .or => .or
  | .nor => .nor
  | .xor => .xor
  | .xnor => .xnor
  | .shl => .shl
  | .shr => .shr
  | .rol => .rol
  | .ror => .ror

end Sys2Proof
end

