-- ==== Sys2Proof/Config.lean ====
section
/-! DEFINITION. What is fixed for one machine (the parameters OPCODE_MAP, ALU_MAP and FLAG_INDEX_MODE of
spec 00_scope.md, "Implementation parameters") and the one free value the spec leaves open, UNDEF8. The reference values of
the parameters stand with the decoder (Decode.lean). -/

namespace Sys2Proof

/-- The parameters of a machine (00_scope.md). The source fixes only OPCODE_MAP(2) = INA. -/
structure Params where
  /-- OPCODE_MAP: the opcode each 4-bit value selects, or none (R66) -/
  opcodeMap : Nibble → Option Opcode
  /-- ALU_MAP: the operation each sub-opcode selects (R64) -/
  aluMap : Nibble → AluOp
  /-- FLAG_INDEX_MODE (R65) -/
  flagIndexMode : FlagIndexMode

/-- UNDEF8 (R6): the byte that the n-th draw gives. A free value, log entry 5: it has no body, so nothing can be
proved about which byte it is. -/
opaque Config.undef8 : Nat → Byte

end Sys2Proof
end

