-- ==== Sys2Proof/WellFormed.lean ====
section
/-! DEFINITION. Which parameters are those of a machine, and which instructions a machine with given
parameters can be given as a byte (spec 30_encoding.md R64 to R66). Under the reference parameters every
instruction is well formed but a JIT or JIF whose flag index is read as a bit mask. -/

namespace Sys2Proof

/-- The sixteen values of a nibble, in order. -/
def nibbles : List Nibble := [0, 1, 2, 3, 4, 5, 6, 7, 8, 9, 10, 11, 12, 13, 14, 15]

/-- The sixteen ALU operations, in the order of the source's table (R64). -/
def AluOp.all : List AluOp :=
  [.add, .sub, .inc, .dec, .cmp, .not, .and, .nand, .or, .nor, .xor, .xnor, .shl, .shr, .rol, .ror]

/-- The laws of the parameters: OPCODE_MAP(2) = INA (R66), and ALU_MAP is a bijection (R64), that is, it takes no
operation twice and leaves none out. -/
abbrev Params.Lawful (P : Params) : Prop :=
  P.opcodeMap 0x2#4 = some .ina ∧ (nibbles.map P.aluMap).Nodup ∧
    ∀ op ∈ AluOp.all, op ∈ nibbles.map P.aluMap

/-- OPCODE_MAP⁻¹: the least opcode value that selects `o`, if any does. -/
def Params.opcodeOf (P : Params) (o : Opcode) : Option Nibble :=
  nibbles.find? fun n => P.opcodeMap n = some o

/-- ALU_MAP⁻¹: the least sub-opcode that selects `op`, if any does. -/
def Params.aluOf (P : Params) (op : AluOp) : Option Nibble :=
  nibbles.find? fun n => P.aluMap n = op

/-- The mode a flag index is read in. -/
def FlagIndex.mode : FlagIndex → FlagIndexMode
  | .position _ => .position
  | .bitmask _ => .bitmask

/-- The ALU operation of an ALU instruction; none for any other. -/
def Instr.aluOp : Instr → Option AluOp
  | .add => some .add
  | .sub => some .sub
  | .inc => some .inc
  | .dec => some .dec
  | .cmp => some .cmp
  | .not => some .not
  | .and => some .and
  | .nand => some .nand
  | .or => some .or
  | .nor => some .nor
  | .xor => some .xor
  | .xnor => some .xnor
  | .shl => some .shl
  | .shr => some .shr
  | .rol => some .rol
  | .ror => some .ror
  | .nop _ => none
  | .mov _ _ => none
  | .ina _ => none
  | .sto _ _ => none
  | .lod _ _ => none
  | .jit _ => none
  | .jif _ => none
  | .push _ => none
  | .pop _ => none
  | .tak _ => none
  | .prn _ => none
  | .cls _ => none
  | .hlt _ => none
  | .trp _ => none
  | .res _ => none

/-- The flag index of JIT and JIF; none for any other instruction. -/
def Instr.flagIndex : Instr → Option FlagIndex
  | .jit f => some f
  | .jif f => some f
  | .nop _ => none
  | .mov _ _ => none
  | .ina _ => none
  | .sto _ _ => none
  | .lod _ _ => none
  | .add => none
  | .sub => none
  | .inc => none
  | .dec => none
  | .cmp => none
  | .not => none
  | .and => none
  | .nand => none
  | .or => none
  | .nor => none
  | .xor => none
  | .xnor => none
  | .shl => none
  | .shr => none
  | .rol => none
  | .ror => none
  | .push _ => none
  | .pop _ => none
  | .tak _ => none
  | .prn _ => none
  | .cls _ => none
  | .hlt _ => none
  | .trp _ => none
  | .res _ => none

/-- A machine with parameters `P` has a byte for `i`: OPCODE_MAP selects its opcode (R66), ALU_MAP its operation
(R64), and its flag index is read in the machine's FLAG_INDEX_MODE (R65). Every other operand is of a type
that holds exactly the values its field holds. -/
abbrev Instr.WellFormed (P : Params) (i : Instr) : Prop :=
  (P.opcodeOf i.opcode).isSome = true ∧
    (∀ op ∈ i.aluOp, (P.aluOf op).isSome = true) ∧
    ∀ f ∈ i.flagIndex, f.mode = P.flagIndexMode

end Sys2Proof
end

