-- ==== Sys2Proof/Decode.lean ====
section
/-! DEFINITION. Decoding a byte, and encoding an instruction (spec 30_encoding.md). Decoding is total: every byte has
a meaning (R60, R68); the only input it rejects is one with no byte at all. -/

namespace Sys2Proof

/-! ### The reference parameters -/

/-- REF_OPCODE_MAP (R67). DESIGN CHOICE, log entry 1: the spec's own reference assignment, which
spec/opcode_table.json is written under; only 2 = INA is from the source. -/
def Config.refOpcodeMap (op : Nibble) : Option Opcode :=
  match op.toNat with
  | 0x0 => some .nop
  | 0x1 => some .mov
  | 0x2 => some .ina
  | 0x3 => some .sto
  | 0x4 => some .lod
  | 0x5 => some .alu
  | 0x6 => some .jit
  | 0x7 => some .jif
  | 0x8 => some .push
  | 0x9 => some .pop
  | 0xA => some .tak
  | 0xB => some .prn
  | 0xC => some .cls
  | 0xD => some .hlt
  | 0xE => some .trp
  | _ => some .res

/-- REF_ALU_MAP (R64). DESIGN CHOICE, log entry 2: the spec's own reference assignment, the order of the
source's table. -/
def Config.refAluMap (L : Nibble) : AluOp :=
  match L.toNat with
  | 0 => .add
  | 1 => .sub
  | 2 => .inc
  | 3 => .dec
  | 4 => .cmp
  | 5 => .not
  | 6 => .and
  | 7 => .nand
  | 8 => .or
  | 9 => .nor
  | 10 => .xor
  | 11 => .xnor
  | 12 => .shl
  | 13 => .shr
  | 14 => .rol
  | _ => .ror

/-- The machine that `step` runs: the reference assignments, and FLAG_INDEX_MODE = POSITION, which the spec
decides (R65, D3; log entry 3). `stepUnder` runs any other. -/
def Config.reference : Params where
  opcodeMap := Config.refOpcodeMap
  aluMap := Config.refAluMap
  flagIndexMode := .position

/-! ### Decoding -/

/-- `opcode = byte[7:4]` (R57). -/
def opcodeField (b : Byte) : Nibble := b.extractLsb' 4 4

/-- `E1 = byte[3:2]` (R57). -/
def e1Field (b : Byte) : Pair := b.extractLsb' 2 2

/-- `E2 = byte[1:0]` (R57). -/
def e2Field (b : Byte) : Pair := b.extractLsb' 0 2

/-- `L = byte[3:0]` (R58). -/
def lowField (b : Byte) : Nibble := b.extractLsb' 0 4

/-- `sel(e)` (R13). -/
def selOf (e : Pair) : Sel :=
  match e.toNat with
  | 0 => .a
  | 1 => .d
  | 2 => .pl
  | _ => .ph

/-- The auto-index mode of a field (R44, R62). -/
def autoIndexOf (m : Pair) : AutoIndex :=
  match m.toNat with
  | 0 => .keep
  | 1 => .postInc
  | 2 => .postDec
  | _ => .unassigned

/-- The flag index L as FLAG_INDEX_MODE has it read (R65). -/
def flagIndexOf (mode : FlagIndexMode) (L : Nibble) : FlagIndex :=
  match mode with
  | .position => .position L
  | .bitmask => .bitmask L

/-- The instruction of an opcode and the low half of a byte (R59), for a machine with parameters `P`. -/
def instrOf (P : Params) (o : Opcode) (b : Byte) : Instr :=
  match o with
  | .nop => .nop (lowField b)
  | .mov => .mov (selOf (e1Field b)) (selOf (e2Field b))
  | .ina => .ina (lowField b)
  | .sto => .sto (autoIndexOf (e1Field b)) (selOf (e2Field b))
  | .lod => .lod (selOf (e1Field b)) (autoIndexOf (e2Field b))
  | .alu => (P.aluMap (lowField b)).instr
  | .jit => .jit (flagIndexOf P.flagIndexMode (lowField b))
  | .jif => .jif (flagIndexOf P.flagIndexMode (lowField b))
  | .push => .push (lowField b)
  | .pop => .pop (lowField b)
  | .tak => .tak (lowField b)
  | .prn => .prn (lowField b)
  | .cls => .cls (lowField b)
  | .hlt => .hlt (lowField b)
  | .trp => .trp (lowField b)
  | .res => .res (lowField b)

/-- The decoder of a machine with parameters `P`. An opcode value with no matching case executes as NOP, whatever its
E1 and E2 (R102), so it decodes to NOP. -/
def decodeUnder (P : Params) (b : Byte) : Instr :=
  match P.opcodeMap (opcodeField b) with
  | some o => instrOf P o b
  | none => .nop (lowField b)

/-- The decoder of the machine that `step` runs: under REF_OPCODE_MAP, REF_ALU_MAP and POSITION (R64, R65, R67). -/
def decode (b : Byte) : Instr := decodeUnder Config.reference b

/-- Why a list of bytes does not decode. -/
inductive DecodeError where
  /-- there is no byte: every instruction is exactly one byte (R57, R69). Raised by `decodeBytes` on the empty
  list; safe, since no step decodes fewer than one byte. -/
  | noByte
deriving DecidableEq, Repr

/-- The instruction at the head of a list of bytes, and the bytes after it (R57, R69). -/
def decodeBytes : List Byte → Except DecodeError (Instr × List Byte)
  | [] => .error .noByte
  | b :: rest => .ok (decode b, rest)

/-- The bytes of an instruction whose bits are `w`, the first at the lowest address: `nbits / 8` bytes, bit 0 the
least significant bit of the first. -/
def tableBytes (nbits w : Nat) : List Byte :=
  if nbits = 8 then [BitVec.ofNat 8 w] else []

/-- The instruction that the decoder reads from a word of spec/opcode_table.json. -/
def decodeTableWord (nbits w : Nat) : Option Instr :=
  match decodeBytes (tableBytes nbits w) with
  | .ok (i, _) => some i
  | .error _ => none

/-! ### Encoding -/

/-- The field value of a register selector (R13). -/
def selCode : Sel → Pair
  | .a => 0
  | .d => 1
  | .pl => 2
  | .ph => 3

/-- The field value of an auto-index mode (R44). -/
def autoIndexCode : AutoIndex → Pair
  | .keep => 0
  | .postInc => 1
  | .postDec => 2
  | .unassigned => 3

/-- The flag index L of JIT or JIF, however it is read (R65). -/
def flagIndexCode : FlagIndex → Nibble
  | .position L => L
  | .bitmask L => L

/-- The low half of an instruction's byte, `E1:E2` (R59, and the encodings of R71). -/
def lowCode (P : Params) : Instr → Option Nibble
  | .nop x => some x
  | .mov rd rs => some (selCode rd ++ selCode rs)
  | .ina imm => some imm
  | .sto m rs => some (autoIndexCode m ++ selCode rs)
  | .lod rd m => some (selCode rd ++ autoIndexCode m)
  | .add => P.aluOf .add
  | .sub => P.aluOf .sub
  | .inc => P.aluOf .inc
  | .dec => P.aluOf .dec
  | .cmp => P.aluOf .cmp
  | .not => P.aluOf .not
  | .and => P.aluOf .and
  | .nand => P.aluOf .nand
  | .or => P.aluOf .or
  | .nor => P.aluOf .nor
  | .xor => P.aluOf .xor
  | .xnor => P.aluOf .xnor
  | .shl => P.aluOf .shl
  | .shr => P.aluOf .shr
  | .rol => P.aluOf .rol
  | .ror => P.aluOf .ror
  | .jit f => some (flagIndexCode f)
  | .jif f => some (flagIndexCode f)
  | .push x => some x
  | .pop x => some x
  | .tak x => some x
  | .prn x => some x
  | .cls x => some x
  | .hlt x => some x
  | .trp x => some x
  | .res x => some x

/-- The byte of an instruction on a machine with parameters `P` (R57); none for an instruction that is not well formed
there. Where OPCODE_MAP selects one opcode by several values, the least is taken. -/
def encodeUnder (P : Params) (i : Instr) : Option Byte :=
  if i.WellFormed P then
    match P.opcodeOf i.opcode, lowCode P i with
    | some op, some low => some (op ++ low)
    | _, _ => none
  else none

/-- The byte of an instruction under the reference parameters. -/
def encode (i : Instr) : Option Byte := encodeUnder Config.reference i

end Sys2Proof
end

