-- ==== Sys2Proof/Machine/State.lean ====
section
/-! DEFINITION. The state of the MM4001 core as plain data (spec 10_state.md), what it is right after reset, and the
named ways a step can stop. -/

namespace Sys2Proof.Machine

/-- A memory space: the bytes that are not `Memory.blank`, by rising address (`Memory.wf` in Ops.lean). -/
abbrev Memory := List Host.Cell

/-- The execution state of the loop (R8, R24). -/
inductive Run where
  | running | halted
deriving DecidableEq, Repr

/-- The four flags of FLG (R18). -/
inductive Flag where
  | equal | greater | carry | borrow
deriving DecidableEq, Repr

/-- All the state of the core (R10, R24, R29, R37). `draws` is the model's own field (log entry 5). -/
structure State where
  /-- A, the accumulator (R14) -/
  a : Byte
  /-- D, the operand register (R15) -/
  d : Byte
  /-- PL, the low nibble of the pointer, in an 8-bit cell (R16) -/
  pl : Byte
  /-- PH, the high nibble of the pointer, in an 8-bit cell (R16) -/
  ph : Byte
  /-- FLG: Borrow, Carry, Greater, Equal in bits 3 to 0 (R18) -/
  flg : Byte
  /-- SP, which no instruction reads or writes (R17) -/
  sp : Byte
  /-- PC, in 0..256 (R22) -/
  pc : Fin 257
  /-- Running or Halted (R24) -/
  run : Run
  /-- Program memory (R38) -/
  program : Memory
  /-- Data memory (R39) -/
  data : Memory
  /-- how many UNDEF8 draws have been taken (R6) -/
  draws : Nat
deriving DecidableEq, Repr

/-- Why no step exists. NO INSTRUCTION RAISES A FAULT (R110): `exec` answers neither of these. -/
inductive Fault where
  /-- Halted is terminal: no step exists (R28). Raised by `step` alone, for every Halted state; safe. -/
  | halted
  /-- Running with PC = 256: there is no byte at that address to fetch. R22 says it does not occur, and `State.Inv`
  rules it out. Raised by `step` alone; safe. -/
  | fetchOutsideProgram
deriving DecidableEq, Repr

/-- Why the model gives an instruction no meaning. -/
inductive Refusal where
  /-- An instruction without a meaning yet. Raised by an arm of `exec` alone; safe. No arm does: every
  instruction of the table has its meaning. -/
  | notModelled (mnemonic : String)
deriving DecidableEq, Repr

/-- The core right after reset: every register 0 (R30), Running (R31), Data all 0 (R33), Program all 0 until the
Loader has written the image (R32, R127). `State.launch` in Ops.lean is reset with an image. `draws` is 0 by DESIGN
CHOICE (log entry 5). -/
def State.reset : State where
  a := 0#8
  d := 0#8
  pl := 0#8
  ph := 0#8
  flg := 0#8
  sp := 0#8
  pc := 0
  run := .running
  program := []
  data := []
  draws := 0

end Sys2Proof.Machine
end

