-- ==== Sys2Proof/Machine/Ops.lean ====
section
/-! DEFINITION. The named operations over the two memories, the registers, the program counter and the execution state
(spec 10_state.md, 20_memory.md). The core has no exception, no trap entry and no return from one (R110, R114, R115), so
there is no operation for them. -/

namespace Sys2Proof.Machine

/-! ### Memory -/

/-- What an address that nothing has written reads as: 0, in Program (R32) and in Data (R33). -/
def Memory.blank : Byte := 0#8

/-- One byte of a memory. -/
def Memory.read : Memory → Nat → Byte
  | [], _ => Memory.blank
  | c :: rest, a => if c.1 = a then c.2 else Memory.read rest a

/-- A memory with no entry for `a`. -/
def Memory.erase (m : Memory) (a : Nat) : Memory := m.filter fun c => c.1 != a

/-- A memory with an entry for `a` before the first higher address. -/
def Memory.insert : Memory → Nat → Byte → Memory
  | [], a, v => [(a, v)]
  | c :: rest, a, v => if a < c.1 then (a, v) :: c :: rest else c :: Memory.insert rest a v

/-- A memory with one byte set. Writing what an unlisted address reads as removes the entry. -/
def Memory.write (m : Memory) (a : Nat) (v : Byte) : Memory :=
  if v = Memory.blank then m.erase a else (m.erase a).insert a v

/-- The canonical form: addresses rise strictly, each is one of the space's 256, and no entry holds what an unlisted
address reads as. -/
abbrev Memory.wf (m : Memory) : Prop :=
  m.Pairwise (fun x y => x.1 < y.1) ∧ ∀ c ∈ m, c.1 < 256 ∧ c.2 ≠ Memory.blank

/-- Bytes laid out from address `start` upwards, in canonical form. -/
def Memory.ofBytes : Nat → List Byte → Memory
  | _, [] => []
  | start, v :: rest =>
    if v = Memory.blank then Memory.ofBytes (start + 1) rest
    else (start, v) :: Memory.ofBytes (start + 1) rest

/-- `ProgRead(a) = Program[a]` (R4, R40). -/
def progRead (s : State) (a : Addr) : Byte := s.program.read a.toNat

/-- `MemRead(a, 1) = Data[a]` (R4, R41). -/
def memRead (s : State) (a : Addr) : Byte := s.data.read a.toNat

/-- `MemWrite(a, 1, v)` sets `Data[a]` (R4, R41). -/
def memWrite (s : State) (a : Addr) (v : Byte) : State := { s with data := s.data.write a.toNat v }

/-! ### Launch -/

/-- The image of the bytes that are supplied: a byte it does not supply is 0 (R32). More than 256 bytes are no
image of a core (N13), so there is none. -/
def imageOf (bytes : List Byte) : Option (Vector Byte 256) :=
  if bytes.length ≤ 256 then some (Vector.ofFn fun k => bytes.getD k.val 0#8) else none

/-- The state at launch: reset, and Program holds the image (R32, R125, R127). -/
def State.launch (image : Vector Byte 256) : State :=
  { State.reset with program := Memory.ofBytes 0 image.toList }

/-! ### Registers -/

/-- `x[sel(e)]` (R3, R13). -/
def readReg (r : Sel) (s : State) : Byte :=
  match r with
  | .a => s.a
  | .d => s.d
  | .pl => s.pl
  | .ph => s.ph

/-- `x[sel(e)] <- v` (R3, R13): the whole 8-bit cell is written (R11). -/
def writeReg (r : Sel) (v : Byte) (s : State) : State :=
  match r with
  | .a => { s with a := v }
  | .d => { s with d := v }
  | .pl => { s with pl := v }
  | .ph => { s with ph := v }

/-- Take the next UNDEF8: any byte, independent of every other draw (R6). -/
def draw (s : State) : Byte × State := (Config.undef8 s.draws, { s with draws := s.draws + 1 })

/-! ### Program counter and execution state -/

/-- An address as a value of PC. -/
def pcOf (a : Addr) : Fin 257 := ⟨a.toNat, Nat.lt_trans a.isLt (by decide)⟩

/-- `pc <- target` (R3). -/
def jumpTo (a : Addr) (s : State) : State := { s with pc := pcOf a }

/-- `halt()`, which is `run <- Halted` (R8). -/
def halt (s : State) : State := { s with run := .halted }

/-- Fetch: the byte at PC, and the state with PC one higher, from 255 to 256 with no wrap (R26). None where PC is
256, which is no address of Program. -/
def fetch (s : State) : Option (Byte × State) :=
  if h : s.pc.val < 256 then
    some (progRead s (BitVec.ofNat 8 s.pc.val), { s with pc := ⟨s.pc.val + 1, Nat.succ_lt_succ h⟩ })
  else none

/-- The boundary check after an instruction: PC above 255 halts, and PC keeps its value (R27). -/
def boundaryCheck (s : State) : State := if 255 < s.pc.val then halt s else s

/-- The boundary check on the outcome of an instruction. -/
def finish (o : Host.Outcome State Fault Refusal) : Host.Outcome State Fault Refusal :=
  match o with
  | .next s => .next (boundaryCheck s)
  | .fault r => .fault r
  | .refused r => .refused r

end Sys2Proof.Machine
end

