-- ==== Sys2Proof/Machine/Operands.lean ====
section
/-! DEFINITION. The pointer unit and auto-index: the one way an operand reaches Data memory (spec 20_memory.md R42 to
R44). Register selectors are `readReg` and `writeReg` in Ops.lean. -/

namespace Sys2Proof.Machine

/-- `pointer() = ((x[PH] << 4) OR x[PL]) mod 256` (R42): PH's upper nibble falls off the top. -/
def pointer (s : State) : Addr := (s.ph <<< 4) ||| s.pl

/-- `storePointer(a)`: PH gets the upper nibble of the address, PL the lower (R43). -/
def storePointer (a : Addr) (s : State) : State := { s with ph := a >>> 4, pl := a &&& 0x0F#8 }

/-- `autoIndex(m)`, after the access (R44): it wraps at both ends, and leaves PH and PL alone in modes 0 and 3. -/
def autoIndex (m : AutoIndex) (s : State) : State :=
  match m with
  | .keep => s
  | .postInc => storePointer (pointer s + 1#8) s
  | .postDec => storePointer (pointer s - 1#8) s
  | .unassigned => s

end Sys2Proof.Machine
end

