-- ==== Sys2Proof/Machine/Flags.lean ====
section
/-! DEFINITION. The flag register: the one way it is written (`setFlag`), the flag computations of the ALU, and the
condition that JIT and JIF test (spec 10_state.md R18 to R21, 41_alu.md R79 to R81, 30_encoding.md R65). -/

namespace Sys2Proof.Machine

/-- `pos(f)`, the bit of FLG that holds flag `f` (R18). -/
def flagPos : Flag → Nat
  | .equal => 0
  | .greater => 1
  | .carry => 2
  | .borrow => 3

/-- `setFlag(f)`: the only write to FLG, and it only sets (R19, R20). -/
def setFlag (f : Flag) (s : State) : State := { s with flg := s.flg ||| (1#8 <<< flagPos f) }

/-- Set a flag if its condition holds; a condition that does not hold leaves the flag as it was (R81). -/
def setFlagIf (c : Bool) (f : Flag) (s : State) : State := if c then setFlag f s else s

/-- The end of ADD and INC on the exact raw sum: Carry if it is 16 or more, then A = raw mod 16 (R79, R80). -/
def carryResult (raw : Int) (s : State) : State :=
  writeReg .a (trunc8 (raw % 16)) (setFlagIf (decide (16 ≤ raw)) .carry s)

/-- The end of SUB and DEC on the exact raw difference: Borrow if it is negative, then A = raw mod 16, the
non-negative remainder (R79, R80). -/
def borrowResult (raw : Int) (s : State) : State :=
  writeReg .a (trunc8 (raw % 16)) (setFlagIf (decide (raw < 0)) .borrow s)

/-- `cond(L)` on the value of FLG (R65): bit L of FLG, or FLG AND L against 0. -/
def cond (f : FlagIndex) (flg : Byte) : Bool :=
  match f with
  | .position L => (flg >>> L.toNat) &&& 1#8 == 1#8
  | .bitmask L => flg &&& zext8 L != 0#8

end Sys2Proof.Machine
end

