-- ==== Sys2Proof/Machine/Alu.lean ====
section
/-! DEFINITION. The sixteen ALU operations (spec 41_alu.md). They act on A and D and write A and FLG only (R78). -/

namespace Sys2Proof.Machine

/-- The end of an operation whose result is not masked: A takes the whole 8-bit value and no flag is written
(R79, R81). -/
def unmaskedResult (v : Byte) (s : State) : Host.Outcome State Fault Refusal := .next (writeReg .a v s)

/-- A takes an UNDEF8 and nothing else changes (R96, R97). -/
def undefinedResult (s : State) : Host.Outcome State Fault Refusal :=
  .next (writeReg .a (draw s).1 (draw s).2)

/-- The counts at which ROL and ROR are defined: 1 to 3 (R96, R97). -/
def rotateDefined (count : Byte) : Bool := decide (1 ≤ count.toNat ∧ count.toNat ≤ 3)

/-- ADD (R82). -/
def execAdd (s : State) : Host.Outcome State Fault Refusal :=
  .next (carryResult ((s.a.toNat : Int) + s.d.toNat) s)

/-- SUB (R83). -/
def execSub (s : State) : Host.Outcome State Fault Refusal :=
  .next (borrowResult ((s.a.toNat : Int) - s.d.toNat) s)

/-- INC (R84). -/
def execInc (s : State) : Host.Outcome State Fault Refusal :=
  .next (carryResult ((s.a.toNat : Int) + 1) s)

/-- DEC (R85). -/
def execDec (s : State) : Host.Outcome State Fault Refusal :=
  .next (borrowResult ((s.a.toNat : Int) - 1) s)

/-- CMP: Greater if A > D, Equal if A = D, on the full 8-bit values; A and D are not written (R86). -/
def execCmp (s : State) : Host.Outcome State Fault Refusal :=
  .next (setFlagIf (decide (s.a = s.d)) .equal (setFlagIf (decide (s.d.toNat < s.a.toNat)) .greater s))

/-- NOT (R87). -/
def execNot (s : State) : Host.Outcome State Fault Refusal := unmaskedResult (~~~s.a) s

/-- AND (R88). -/
def execAnd (s : State) : Host.Outcome State Fault Refusal := unmaskedResult (s.a &&& s.d) s

/-- NAND (R89). -/
def execNand (s : State) : Host.Outcome State Fault Refusal := unmaskedResult (~~~(s.a &&& s.d)) s

/-- OR (R90). -/
def execOr (s : State) : Host.Outcome State Fault Refusal := unmaskedResult (s.a ||| s.d) s

/-- NOR (R91). -/
def execNor (s : State) : Host.Outcome State Fault Refusal := unmaskedResult (~~~(s.a ||| s.d)) s

/-- XOR (R92). -/
def execXor (s : State) : Host.Outcome State Fault Refusal := unmaskedResult (s.a ^^^ s.d) s

/-- XNOR (R93). -/
def execXnor (s : State) : Host.Outcome State Fault Refusal := unmaskedResult (~~~(s.a ^^^ s.d)) s

/-- SHL: the count is all of D, and the result is 0 for D of 8 or more (R94). -/
def execShl (s : State) : Host.Outcome State Fault Refusal := unmaskedResult (s.a <<< s.d.toNat) s

/-- SHR: logical, the count is all of D, and the result is 0 for D of 8 or more (R95). -/
def execShr (s : State) : Host.Outcome State Fault Refusal := unmaskedResult (s.a >>> s.d.toNat) s

/-- ROL: for D in 1 to 3, `(A << D) OR (A >> (4 - D))` in the 8-bit cell; otherwise UNDEF8 (R96). -/
def execRol (s : State) : Host.Outcome State Fault Refusal :=
  if rotateDefined s.d then unmaskedResult ((s.a <<< s.d.toNat) ||| (s.a >>> (4 - s.d.toNat))) s
  else undefinedResult s

/-- ROR: for D in 1 to 3, `(A >> D) OR (A << (4 - D))` in the 8-bit cell; otherwise UNDEF8 (R97). -/
def execRor (s : State) : Host.Outcome State Fault Refusal :=
  if rotateDefined s.d then unmaskedResult ((s.a >>> s.d.toNat) ||| (s.a <<< (4 - s.d.toNat))) s
  else undefinedResult s

end Sys2Proof.Machine
end

