-- ==== Sys2Proof/Machine/Control.lean ====
section
/-! DEFINITION. The conditional jumps and HLT (spec 42_control.md R98 to R101). -/

namespace Sys2Proof.Machine

/-- `if taken then pc <- pointer()`: the one form a jump has (R98). -/
def jumpIf (taken : Bool) (s : State) : Host.Outcome State Fault Refusal :=
  .next (if taken then jumpTo (pointer s) s else s)

/-- JIT: jump if the indexed flag is set (R99). -/
def execJit (f : FlagIndex) (s : State) : Host.Outcome State Fault Refusal := jumpIf (cond f s.flg) s

/-- JIF: jump if the indexed flag is clear (R100). -/
def execJif (f : FlagIndex) (s : State) : Host.Outcome State Fault Refusal := jumpIf (!cond f s.flg) s

/-- HLT: `halt()` (R101). -/
def execHlt (s : State) : Host.Outcome State Fault Refusal := .next (halt s)

end Sys2Proof.Machine
end

