-- ==== Sys2Proof/Machine/Reserved.lean ====
section
/-! DEFINITION. The seven reserved opcodes, each a no-op (spec 42_control.md R103 to R109, C4, D9). Their names suggest
nothing the core does (N6). -/

namespace Sys2Proof.Machine

/-- What every reserved opcode does: `skip` (the template before R103). -/
def reservedNoOp (s : State) : Host.Outcome State Fault Refusal := .next s

/-- PUSH: reserved, a no-op; SP is not read or written (R103). -/
def execPush (s : State) : Host.Outcome State Fault Refusal := reservedNoOp s

/-- POP: reserved, a no-op; SP and Data are not touched (R104). -/
def execPop (s : State) : Host.Outcome State Fault Refusal := reservedNoOp s

/-- TAK: reserved, a no-op (R105). -/
def execTak (s : State) : Host.Outcome State Fault Refusal := reservedNoOp s

/-- PRN: reserved, a no-op; nothing is printed (R106). -/
def execPrn (s : State) : Host.Outcome State Fault Refusal := reservedNoOp s

/-- CLS: reserved, a no-op; Data is not cleared (R107). -/
def execCls (s : State) : Host.Outcome State Fault Refusal := reservedNoOp s

/-- TRP: reserved, a no-op; no trap is taken (R108). -/
def execTrp (s : State) : Host.Outcome State Fault Refusal := reservedNoOp s

/-- RES: reserved, a no-op; nothing is reset (R109). -/
def execRes (s : State) : Host.Outcome State Fault Refusal := reservedNoOp s

end Sys2Proof.Machine
end

