-- ==== Sys2Proof/Machine/Transfer.lean ====
section
/-! DEFINITION. The data transfer instructions NOP, INA, MOV, STO and LOD (spec 40_transfer.md). Each meaning is one
instruction's part of a step: the fetch has already advanced PC, and the boundary check comes after (R25). -/

namespace Sys2Proof.Machine

/-- NOP: `skip` (R73). -/
def execNop (s : State) : Host.Outcome State Fault Refusal := .next s

/-- MOV: `v <- x[sel(E2)]`, then `x[sel(E1)] <- v` (R75). -/
def execMov (rd rs : Sel) (s : State) : Host.Outcome State Fault Refusal :=
  .next (writeReg rd (readReg rs s) s)

/-- INA: `x[A] <- zext_8(instr AND 0xF)` (R74). -/
def execIna (imm : Nibble) (s : State) : Host.Outcome State Fault Refusal :=
  .next (writeReg .a (zext8 imm) s)

/-- STO: the whole cell to Data at the pointer, then auto-index (R76). -/
def execSto (m : AutoIndex) (rs : Sel) (s : State) : Host.Outcome State Fault Refusal :=
  .next (autoIndex m (memWrite s (pointer s) (readReg rs s)))

/-- LOD: the whole byte of Data at the pointer, then auto-index, which reads the pointer as the load left it
(R77, R9). -/
def execLod (rd : Sel) (m : AutoIndex) (s : State) : Host.Outcome State Fault Refusal :=
  .next (autoIndex m (writeReg rd (memRead s (pointer s)) s))

end Sys2Proof.Machine
end

