-- ==== Sys2Proof/Machine/Dispatch.lean ====
section
/-! DEFINITION. One arm per instruction (the `case` of the step in spec 10_state.md R25). `exec` is the instruction's part
of a step: it acts on the state after the fetch, and the boundary check follows it (Step.lean). -/

namespace Sys2Proof.Machine

/-- What an instruction does. -/
def exec (i : Instr) (s : State) : Host.Outcome State Fault Refusal :=
  match i with
  | .nop _ => Sys2Proof.Machine.execNop s
  | .mov rd rs => Sys2Proof.Machine.execMov rd rs s
  | .ina imm => Sys2Proof.Machine.execIna imm s
  | .sto m rs => Sys2Proof.Machine.execSto m rs s
  | .lod rd m => Sys2Proof.Machine.execLod rd m s
  | .add => Sys2Proof.Machine.execAdd s
  | .sub => Sys2Proof.Machine.execSub s
  | .inc => Sys2Proof.Machine.execInc s
  | .dec => Sys2Proof.Machine.execDec s
  | .cmp => Sys2Proof.Machine.execCmp s
  | .not => Sys2Proof.Machine.execNot s
  | .and => Sys2Proof.Machine.execAnd s
  | .nand => Sys2Proof.Machine.execNand s
  | .or => Sys2Proof.Machine.execOr s
  | .nor => Sys2Proof.Machine.execNor s
  | .xor => Sys2Proof.Machine.execXor s
  | .xnor => Sys2Proof.Machine.execXnor s
  | .shl => Sys2Proof.Machine.execShl s
  | .shr => Sys2Proof.Machine.execShr s
  | .rol => Sys2Proof.Machine.execRol s
  | .ror => Sys2Proof.Machine.execRor s
  | .jit f => Sys2Proof.Machine.execJit f s
  | .jif f => Sys2Proof.Machine.execJif f s
  | .push _ => Sys2Proof.Machine.execPush s
  | .pop _ => Sys2Proof.Machine.execPop s
  | .tak _ => Sys2Proof.Machine.execTak s
  | .prn _ => Sys2Proof.Machine.execPrn s
  | .cls _ => Sys2Proof.Machine.execCls s
  | .hlt _ => Sys2Proof.Machine.execHlt s
  | .trp _ => Sys2Proof.Machine.execTrp s
  | .res _ => Sys2Proof.Machine.execRes s

end Sys2Proof.Machine
end

