-- ==== Sys2Proof/Machine/Step.lean ====
section
/-! DEFINITION. One step of the fetch-decode-execute loop (spec 10_state.md R25): fetch, decode, the instruction, the
boundary check. -/

namespace Sys2Proof.Machine

/-- One step of a machine with parameters `P`. No step exists in Halted (R28). -/
def stepUnder (P : Params) (s : State) : Host.Outcome State Fault Refusal :=
  match s.run with
  | .halted => .fault .halted
  | .running =>
    match fetch s with
    | none => .fault .fetchOutsideProgram
    | some (b, s') => finish (exec (decodeUnder P b) s')

/-- One step of the machine with the reference parameters (R64, R65, R67). -/
def step (s : State) : Host.Outcome State Fault Refusal := stepUnder Config.reference s

/-- `s` with the byte of a word of spec/opcode_table.json at the Program address that `step` fetches next: what the
Loader does before the first step (R32; log entry 4). -/
def State.withFetchWord (s : State) (nbits w : Nat) : State :=
  match tableBytes nbits w with
  | b :: _ => if s.pc.val < 256 then { s with program := s.program.write s.pc.val b } else s
  | [] => s

end Sys2Proof.Machine
end

