-- ==== Sys2Proof/Machine/Interface.lean ====
section
/-! DEFINITION. The block's abstract ports (spec 10_state.md R35, R36): `image` is `State.launch`, `state` is the State
itself, and `halted` and `advance` are here. -/

namespace Sys2Proof.Machine

/-- The `halted` output: `run == Halted` (R35). -/
def State.halted (s : State) : Bool := s.run == .halted

/-- What the `advance` input permits: one step, while Running (R35). Without `advance` the core makes no step, and in
Halted no step exists (R28); the state then stays as it is. -/
def tick (advance : Bool) (s : State) : Host.Outcome State Fault Refusal :=
  if advance && !s.halted then step s else .next s

end Sys2Proof.Machine
end

