-- ==== Sys2Proof/Safety.lean ====
section
/-! DEFINITION. What claims about the core are stated in: the invariant of its states, what a step leaves unchanged, the
instruction a step runs, and runs (spec 10_state.md R21, R22; 42_control.md R99, R100; 70_reset_and_hazards.md R129). -/

namespace Sys2Proof.Machine

/-- The invariant of the core's states: both memories are canonical, FLG's upper four bits are 0 (R21), and PC is an
address of Program while Running (R22). -/
abbrev State.Inv (s : State) : Prop :=
  s.program.wf ∧ s.data.wf ∧ s.flg.toNat < 16 ∧ (s.run = .running → s.pc.val < 256)

/-- Every byte of Data and of Program reads as before. -/
abbrev SameMemory (s t : State) : Prop :=
  (∀ x, memRead t x = memRead s x) ∧ ∀ x, progRead t x = progRead s x

/-- The byte at PC, which the next step fetches (R26). -/
def currentByte (s : State) : Byte := progRead s (BitVec.ofNat 8 s.pc.val)

/-- The instruction that the next step of a machine with parameters `P` runs. -/
def currentInstr (P : Params) (s : State) : Instr := decodeUnder P (currentByte s)

/-- `i` is a JIT or JIF that is taken with this value of FLG (R99, R100). -/
abbrev TakesJump (i : Instr) (flg : Byte) : Prop :=
  (∃ f, i = .jit f ∧ cond f flg = true) ∨ ∃ f, i = .jif f ∧ cond f flg = false

/-- `n` steps of a machine with parameters `P`, ending early where no step exists (R28). -/
def runUnder (P : Params) : Nat → State → Host.Outcome State Fault Refusal
  | 0, s => .next s
  | n + 1, s =>
    match stepUnder P s with
    | .next t => runUnder P n t
    | .fault r => .fault r
    | .refused r => .refused r

/-- The state that a step leaves when nothing but PC's advance and the boundary check acts (R26, R27): what remains
of a step whose instruction is a no-op. -/
def advanced (s : State) (h : s.pc.val < 256) : State :=
  { s with pc := ⟨s.pc.val + 1, Nat.succ_lt_succ h⟩, run := if s.pc.val = 255 then .halted else s.run }

end Sys2Proof.Machine
end

