-- ==== Sys2Proof/Certificates/Slice0/Obligations.lean ====
section
/-! DEFINITION. The statements for the provers. Each says what a rule of spec/ says an instruction or the machine does. Its
docstring names the rule; where a clause rests on a decision the spec marks as its own, or on a choice of the model, the
docstring names the decision or the log entry. OBLIGATIONS.json lists them. -/

namespace Sys2Proof.Claims

open Sys2Proof.Machine

/-- Register-selector value `e` selects `r`, by the table of R13. -/
def SelectorIs (e : Nat) (r : Sel) : Prop :=
  (e = 0 ∧ r = .a) ∨ (e = 1 ∧ r = .d) ∨ (e = 2 ∧ r = .pl) ∨ (e = 3 ∧ r = .ph)

/-- Auto-index field value `m` is mode `k`, by the table of R44. -/
def ModeIs (m : Nat) (k : AutoIndex) : Prop :=
  (m = 0 ∧ k = .keep) ∨ (m = 1 ∧ k = .postInc) ∨ (m = 2 ∧ k = .postDec) ∨ (m = 3 ∧ k = .unassigned)

/-- On a machine with parameters `P`, byte `b` has opcode `o`. -/
def HasOpcode (P : Params) (b : Byte) (o : Opcode) : Prop := P.opcodeMap (opcodeField b) = some o

/-- Whatever OPCODE_MAP and ALU_MAP are, a byte under the ALU opcode whose L selects `op` decodes to `i`. -/
def SelectedBy (op : AluOp) (i : Instr) : Prop :=
  ∀ P b, HasOpcode P b .alu → P.aluMap (lowField b) = op → decodeUnder P b = i

/-- The pointer registers of `t` are those that auto-index in mode `m` leaves, from pointer `p` held as `ph` and `pl`,
by the table of R44 and by R43. -/
def IndexedFrom (p : Addr) (ph pl : Byte) (m : AutoIndex) (t : State) : Prop :=
  match m with
  | .keep => t.ph = ph ∧ t.pl = pl
  | .postInc => t.ph.toNat = (p.toNat + 1) % 256 / 16 ∧ t.pl.toNat = (p.toNat + 1) % 16
  | .postDec => t.ph.toNat = (p.toNat + 255) % 256 / 16 ∧ t.pl.toNat = (p.toNat + 255) % 16
  | .unassigned => t.ph = ph ∧ t.pl = pl

/-- `t` is `s` but for A, and every byte of memory reads as before. -/
def OnlyA (s t : State) : Prop := t = { s with a := t.a } ∧ SameMemory s t

/-- `t` is `s` but for A and FLG, and every byte of memory reads as before. -/
def OnlyAFlg (s t : State) : Prop := t = { s with a := t.a, flg := t.flg } ∧ SameMemory s t

/-- `t` is `s` but for A and the count of draws, and every byte of memory reads as before. -/
def OnlyADraws (s t : State) : Prop := t = { s with a := t.a, draws := t.draws } ∧ SameMemory s t

/-- `t` is `s` but for PC, and every byte of memory reads as before. -/
def OnlyPc (s t : State) : Prop := t = { s with pc := t.pc } ∧ SameMemory s t

/-- The state after the fetch of a step: PC is one higher (R26). -/
def fetched (s : State) (h : s.pc.val < 256) : State := { s with pc := ⟨s.pc.val + 1, Nat.succ_lt_succ h⟩ }

/-- The bits of FLG that an instruction may set (R20): ADD and INC Carry, SUB and DEC Borrow, CMP Greater and Equal. -/
def settable : Instr → Byte
  | .add => 0x04#8
  | .inc => 0x04#8
  | .sub => 0x08#8
  | .dec => 0x08#8
  | .cmp => 0x03#8
  | _ => 0x00#8

end Sys2Proof.Claims

open Sys2Proof Sys2Proof.Machine Sys2Proof.Claims

/-! ### Encoding -/

/-- R57: the fields of every byte, and that an instruction is exactly one byte. -/
def Obligations.FieldsOfEveryByte : Prop :=
  ∀ (b : Byte) (rest : List Byte),
    (opcodeField b).toNat = b.toNat >>> 4 ∧ (e1Field b).toNat = (b.toNat >>> 2) &&& 3 ∧
    (e2Field b).toNat = b.toNat &&& 3 ∧ decodeBytes (b :: rest) = .ok (decode b, rest)

/-- The table of 95_test_vectors.md 2.1, under REF_OPCODE_MAP and REF_ALU_MAP, which are the spec's own choice (D1, D2;
log entries 1 and 2). That the bytes 0x63 and 0x7F carry POSITION in their flag index, and that 0x00, 0xD7 and 0xE5 keep
their ignored bits, is the model's choice (D3, log entry 3; log entry 1). A sanity statement. -/
def Obligations.ReferenceWordsDecode : Prop :=
  decode 0x00#8 = .nop 0 ∧ decode 0x14#8 = .mov .d .a ∧ decode 0x1E#8 = .mov .ph .pl ∧
  decode 0x2F#8 = .ina 15 ∧ decode 0x34#8 = .sto .postInc .a ∧ decode 0x3E#8 = .sto .unassigned .pl ∧
  decode 0x46#8 = .lod .d .postDec ∧ decode 0x49#8 = .lod .pl .postInc ∧ decode 0x5A#8 = .xor ∧
  decode 0x63#8 = .jit (.position 3) ∧ decode 0x7F#8 = .jif (.position 15) ∧
  decode 0xD7#8 = .hlt 7 ∧ decodeTableWord 8 0xE5 = some (.trp 5)

/-- Whatever the parameters are, an instruction the machine has a byte for encodes, and its byte decodes to it again with
every operand (30_encoding.md R57, R59, R64 to R66). The ignored bits of NOP, HLT and the reserved opcodes are operands here
by the model's choice (log entry 1), and the mode of a flag index is one (log entry 3). -/
def Obligations.DecodeInvertsEncode : Prop :=
  ∀ (P : Params) (i : Instr), i.WellFormed P → ∃ b, encodeUnder P i = some b ∧ decodeUnder P b = i

/-- Where no two opcode values select one opcode and ALU_MAP is a bijection (R64), every mapped byte is the encoding of
what it decodes to: the model's decoder drops no bit. For NOP, HLT and the reserved opcodes this holds because the model
keeps their ignored bits in the instruction (DESIGN CHOICE, log entry 1); R71 writes those bits 0. -/
def Obligations.EncodeInvertsDecode : Prop :=
  ∀ (P : Params), P.Lawful → (∀ m n o, P.opcodeMap m = some o → P.opcodeMap n = some o → m = n) →
    ∀ b o, HasOpcode P b o → encodeUnder P (decodeUnder P b) = some b

/-- R13: what each selector value selects, that the selected register takes the whole value written, and that a write
through any selector leaves FLG, PC, SP and everything else alone. -/
def Obligations.SelectorReachesFourRegisters : Prop :=
  (∀ e : Pair, SelectorIs e.toNat (selOf e)) ∧
  ∀ (s : State) (v : Byte),
    readReg .a s = s.a ∧ readReg .d s = s.d ∧ readReg .pl s = s.pl ∧ readReg .ph s = s.ph ∧
    ∀ e : Pair, let t := writeReg (selOf e) v s
      readReg (selOf e) t = v ∧ (∀ q : Pair, q ≠ e → readReg (selOf q) t = readReg (selOf q) s) ∧
      t = { s with a := t.a, d := t.d, pl := t.pl, ph := t.ph }

/-! ### Data transfer -/

/-- R73: NOP changes nothing; the step's own PC advance and boundary check remain, so that at address 255 it halts with
PC = 256. -/
def Obligations.NopOnlyAdvancesPc : Prop :=
  (∀ (x : Nibble) (s : State), exec (.nop x) s = .next s) ∧
  ∀ (P : Params) (s : State) (h : s.pc.val < 256), s.run = .running → HasOpcode P (currentByte s) .nop →
    stepUnder P s = .next { fetched s h with run := if s.pc.val = 255 then .halted else .running }

/-- R74: on every lawful machine opcode 2 is INA with the low nibble as its immediate; A takes it zero-extended, whatever
A held, and nothing else changes. -/
def Obligations.InaLoadsLowNibble : Prop :=
  (∀ (P : Params) (imm : Nibble), P.Lawful → decodeUnder P (0x2#4 ++ imm) = .ina imm) ∧
  ∀ (imm : Nibble) (s : State), ∃ t, exec (.ina imm) s = .next t ∧ t.a.toNat = imm.toNat ∧ OnlyA s t

/-- R75: MOV copies the whole cell of register E2 to register E1 and changes nothing else; with E1 = E2 nothing changes. -/
def Obligations.MovCopiesRegister : Prop :=
  (∀ P b, HasOpcode P b .mov → ∃ rd rs, SelectorIs (e1Field b).toNat rd ∧ SelectorIs (e2Field b).toNat rs ∧
    decodeUnder P b = .mov rd rs) ∧
  ∀ (rd rs : Sel) (s : State), ∃ t, exec (.mov rd rs) s = .next t ∧ readReg rd t = readReg rs s ∧
    (∀ r, r ≠ rd → readReg r t = readReg r s) ∧ (rd = rs → t = s) ∧
    t = { s with a := t.a, d := t.d, pl := t.pl, ph := t.ph } ∧ SameMemory s t

/-- R76: STO stores the whole cell of register E2, as it was before the auto-index, at the pointer, and then auto-indexes by
E1. No other byte of Data and no other state changes. -/
def Obligations.StoStoresAtPointer : Prop :=
  (∀ P b, HasOpcode P b .sto → ∃ m rs, ModeIs (e1Field b).toNat m ∧ SelectorIs (e2Field b).toNat rs ∧
    decodeUnder P b = .sto m rs) ∧
  ∀ (m : AutoIndex) (rs : Sel) (s : State), ∃ t, exec (.sto m rs) s = .next t ∧
    memRead t (pointer s) = readReg rs s ∧ (∀ x, x ≠ pointer s → memRead t x = memRead s x) ∧
    (∀ x, progRead t x = progRead s x) ∧ IndexedFrom (pointer s) s.ph s.pl m t ∧
    t = { s with ph := t.ph, pl := t.pl, data := t.data }

/-- LOD as 40_transfer.md gives it: the whole byte at the pointer into register E1, and then auto-index by E2. That the
auto-index starts from the pointer formed with the newly loaded register is the spec's own reading (D20; log entry 13). -/
def Obligations.LodLoadsFromPointer : Prop :=
  (∀ P b, HasOpcode P b .lod → ∃ rd m, SelectorIs (e1Field b).toNat rd ∧ ModeIs (e2Field b).toNat m ∧
    decodeUnder P b = .lod rd m) ∧
  ∀ (rd : Sel) (m : AutoIndex) (s : State), ∃ t, exec (.lod rd m) s = .next t ∧
    let v := memRead s (pointer s)
    let ph := if rd = .ph then v else s.ph
    let pl := if rd = .pl then v else s.pl
    t.a = (if rd = .a then v else s.a) ∧ t.d = (if rd = .d then v else s.d) ∧
    IndexedFrom ((ph <<< 4) ||| pl) ph pl m t ∧
    t = { s with a := t.a, d := t.d, pl := t.pl, ph := t.ph } ∧ SameMemory s t

/-- The source's testable property quoted at the end of R77: a value stored with no auto-index (mode 0, or 3, which acts as
0) and then loaded from the same pointer comes back unchanged, into whichever register. -/
def Obligations.StoreThenLoadReturnsValue : Prop :=
  ∀ (m k : AutoIndex) (r q : Sel) (s : State), (m = .keep ∨ m = .unassigned) → (k = .keep ∨ k = .unassigned) →
    ∃ t u, exec (.sto m r) s = .next t ∧ exec (.lod q k) t = .next u ∧ readReg q u = readReg r s

/-! ### The pointer unit -/

/-- R42: the pointer formula, for cells of any value, and its reading as PH:PL when both are nibbles. -/
def Obligations.PointerFormula : Prop :=
  ∀ s : State, (pointer s).toNat = ((s.ph.toNat <<< 4) ||| s.pl.toNat) % 256 ∧
    (s.ph.toNat < 16 → s.pl.toNat < 16 → (pointer s).toNat = 16 * s.ph.toNat + s.pl.toNat)

/-- R43: storePointer leaves the two nibbles of the address, the pointer is then that address, and nothing else changes. -/
def Obligations.StorePointerSplitsAddress : Prop :=
  ∀ (a : Addr) (s : State), let t := storePointer a s
    t.ph.toNat = a.toNat / 16 ∧ t.pl.toNat = a.toNat % 16 ∧ pointer t = a ∧ t = { s with ph := t.ph, pl := t.pl }

/-- R44: auto-index by mode, wrapping at both ends; modes 0 and 3 leave PH and PL untouched, modes 1 and 2 leave them
nibbles. -/
def Obligations.AutoIndexByMode : Prop :=
  (∀ m : Pair, ModeIs m.toNat (autoIndexOf m)) ∧
  ∀ (m : AutoIndex) (s : State), let t := autoIndex m s
    IndexedFrom (pointer s) s.ph s.pl m t ∧
    (m = .postInc → (pointer t).toNat = ((pointer s).toNat + 1) % 256) ∧
    (m = .postDec → ((pointer t).toNat + 1) % 256 = (pointer s).toNat) ∧
    (m = .keep ∨ m = .unassigned → t = s) ∧ t = { s with ph := t.ph, pl := t.pl }

/-! ### ALU -/

/-- R82: ADD. -/
def Obligations.AddMasksAndSetsCarry : Prop :=
  SelectedBy .add .add ∧ ∀ s : State, ∃ t, exec .add s = .next t ∧
    t.a.toNat = (s.a.toNat + s.d.toNat) % 16 ∧
    t.flg = (if 16 ≤ s.a.toNat + s.d.toNat then s.flg ||| 0x04#8 else s.flg) ∧ OnlyAFlg s t

/-- R83: SUB. -/
def Obligations.SubMasksAndSetsBorrow : Prop :=
  SelectedBy .sub .sub ∧ ∀ s : State, ∃ t, exec .sub s = .next t ∧
    (t.a.toNat : Int) = ((s.a.toNat : Int) - s.d.toNat) % 16 ∧
    t.flg = (if s.a.toNat < s.d.toNat then s.flg ||| 0x08#8 else s.flg) ∧ OnlyAFlg s t

/-- R84: INC. -/
def Obligations.IncMasksAndSetsCarry : Prop :=
  SelectedBy .inc .inc ∧ ∀ s : State, ∃ t, exec .inc s = .next t ∧
    t.a.toNat = (s.a.toNat + 1) % 16 ∧
    t.flg = (if 15 ≤ s.a.toNat then s.flg ||| 0x04#8 else s.flg) ∧ OnlyAFlg s t

/-- R85: DEC. -/
def Obligations.DecMasksAndSetsBorrow : Prop :=
  SelectedBy .dec .dec ∧ ∀ s : State, ∃ t, exec .dec s = .next t ∧
    t.a.toNat = (s.a.toNat + 15) % 16 ∧
    t.flg = (if s.a.toNat = 0 then s.flg ||| 0x08#8 else s.flg) ∧ OnlyAFlg s t

/-- R86: CMP compares the full 8-bit values, sets Greater or Equal, clears nothing and writes neither A nor D. -/
def Obligations.CmpSetsGreaterOrEqual : Prop :=
  SelectedBy .cmp .cmp ∧ ∀ s : State, ∃ t, exec .cmp s = .next t ∧
    t.flg = (if s.d.toNat < s.a.toNat then s.flg ||| 0x02#8
      else if s.a.toNat = s.d.toNat then s.flg ||| 0x01#8 else s.flg) ∧
    t = { s with flg := t.flg } ∧ SameMemory s t

/-- NOT as 41_alu.md gives it; that the complement is that of the whole 8-bit cell is the spec's decision D4 (log
entry 6). -/
def Obligations.NotComplementsWholeCell : Prop :=
  SelectedBy .not .not ∧ ∀ s : State, ∃ t, exec .not s = .next t ∧ t.a.toNat = 255 - s.a.toNat ∧ OnlyA s t

/-- R88, R90, R92: AND, OR and XOR of the whole cells, with no flag. -/
def Obligations.AndOrXorCombineCells : Prop :=
  SelectedBy .and .and ∧ SelectedBy .or .or ∧ SelectedBy .xor .xor ∧ ∀ s : State,
    (∃ t, exec .and s = .next t ∧ t.a.toNat = s.a.toNat &&& s.d.toNat ∧ OnlyA s t) ∧
    (∃ t, exec .or s = .next t ∧ t.a.toNat = s.a.toNat ||| s.d.toNat ∧ OnlyA s t) ∧
    ∃ t, exec .xor s = .next t ∧ t.a.toNat = s.a.toNat ^^^ s.d.toNat ∧ OnlyA s t

/-- R89, R91, R93: NAND, NOR and XNOR, the complement of the whole cell, unmasked and with no flag. -/
def Obligations.NandNorXnorComplementCells : Prop :=
  SelectedBy .nand .nand ∧ SelectedBy .nor .nor ∧ SelectedBy .xnor .xnor ∧ ∀ s : State,
    (∃ t, exec .nand s = .next t ∧ t.a.toNat = 255 - (s.a.toNat &&& s.d.toNat) ∧ OnlyA s t) ∧
    (∃ t, exec .nor s = .next t ∧ t.a.toNat = 255 - (s.a.toNat ||| s.d.toNat) ∧ OnlyA s t) ∧
    ∃ t, exec .xnor s = .next t ∧ t.a.toNat = 255 - (s.a.toNat ^^^ s.d.toNat) ∧ OnlyA s t

/-- SHL as 41_alu.md gives it: the exact shift by all of D, reduced to the cell; the result 0 for D of 8 or more is the
spec's decision D7 (log entry 7). -/
def Obligations.ShlShiftsByWholeCount : Prop :=
  SelectedBy .shl .shl ∧ ∀ s : State, ∃ t, exec .shl s = .next t ∧
    t.a.toNat = s.a.toNat * 2 ^ s.d.toNat % 256 ∧ (8 ≤ s.d.toNat → t.a = 0#8) ∧ OnlyA s t

/-- SHR as 41_alu.md gives it: floor division by a power of two; the result 0 for D of 8 or more is the spec's decision D7
(log entry 7). -/
def Obligations.ShrShiftsByWholeCount : Prop :=
  SelectedBy .shr .shr ∧ ∀ s : State, ∃ t, exec .shr s = .next t ∧
    t.a.toNat = s.a.toNat / 2 ^ s.d.toNat ∧ (8 ≤ s.d.toNat → t.a = 0#8) ∧ OnlyA s t

/-- ROL as 41_alu.md gives it: the nibble rotate, unmasked, for counts 1 to 3; at every other count A takes a draw, whatever
byte that is, and nothing else changes (D8; log entry 5). -/
def Obligations.RolRotatesOrDraws : Prop :=
  SelectedBy .rol .rol ∧ ∀ s : State, ∃ t, exec .rol s = .next t ∧ OnlyADraws s t ∧
    (if 1 ≤ s.d.toNat ∧ s.d.toNat ≤ 3 then
      t.a.toNat = ((s.a.toNat * 2 ^ s.d.toNat) ||| (s.a.toNat / 2 ^ (4 - s.d.toNat))) % 256 ∧ t.draws = s.draws
    else t.a = Config.undef8 s.draws ∧ t.draws = s.draws + 1)

/-- ROR as 41_alu.md gives it: the nibble rotate, unmasked, for counts 1 to 3; at every other count A takes a draw, whatever
byte that is, and nothing else changes (D8; log entry 5). -/
def Obligations.RorRotatesOrDraws : Prop :=
  SelectedBy .ror .ror ∧ ∀ s : State, ∃ t, exec .ror s = .next t ∧ OnlyADraws s t ∧
    (if 1 ≤ s.d.toNat ∧ s.d.toNat ≤ 3 then
      t.a.toNat = ((s.a.toNat / 2 ^ s.d.toNat) ||| (s.a.toNat * 2 ^ (4 - s.d.toNat))) % 256 ∧ t.draws = s.draws
    else t.a = Config.undef8 s.draws ∧ t.draws = s.draws + 1)

/-- The ALU as 41_alu.md's common rules give it: the opcode selects by L as ALU_MAP says; whatever the operation, it
completes, writes only A and FLG, and what it writes depends on A and FLG, on D where it uses D (INC, DEC and NOT do not),
and for ROL and ROR on the draw. The count of draws is the model's own, and that two runs with equal counts take the same
draw is its choice (DESIGN CHOICE, log entry 5); no other operation's clause needs it. -/
def Obligations.AluReadsAndWritesAccumulator : Prop :=
  (∀ P b, HasOpcode P b .alu → decodeUnder P b = (P.aluMap (lowField b)).instr) ∧
  ∀ (op : AluOp) (s : State), ∃ t, exec op.instr s = .next t ∧
    t = { s with a := t.a, flg := t.flg, draws := t.draws } ∧ SameMemory s t ∧
    (op ∉ [AluOp.rol, .ror] → t.draws = s.draws ∧
      ∀ u : State, u.a = s.a → u.flg = s.flg → (op ∉ [AluOp.inc, .dec, .not] → u.d = s.d) →
        exec op.instr u = .next { u with a := t.a, flg := t.flg }) ∧
    (op ∈ [AluOp.rol, .ror] → t.flg = s.flg ∧
      ∀ u : State, u.a = s.a → u.d = s.d → u.draws = s.draws →
        exec op.instr u = .next { u with a := t.a, draws := t.draws })

/-- The asymmetry of masking, as 41_alu.md gives it (the spec's decision D4; log entry 6): ADD, SUB, INC and DEC leave a
nibble from every state; NOT, NAND, NOR and XNOR of nibbles always leave a value of 16 or more; and each of the eleven
operations that are not masked leaves one from some state, the rotates at a defined count. -/
def Obligations.OnlyArithmeticMasks : Prop :=
  (∀ (op : AluOp) (s t : State), op ∈ [AluOp.add, .sub, .inc, .dec] → exec op.instr s = .next t → t.a.toNat < 16) ∧
  (∀ (op : AluOp) (s t : State), op ∈ [AluOp.not, .nand, .nor, .xnor] → s.a.toNat < 16 → s.d.toNat < 16 →
    exec op.instr s = .next t → 16 ≤ t.a.toNat) ∧
  ∀ op ∈ [AluOp.not, .and, .nand, .or, .nor, .xor, .xnor, .shl, .shr, .rol, .ror], ∃ s t : State,
    (op ∈ [AluOp.rol, .ror] → 1 ≤ s.d.toNat ∧ s.d.toNat ≤ 3) ∧ exec op.instr s = .next t ∧ 16 ≤ t.a.toNat

/-! ### Flags -/

/-- R19: setFlag sets the one bit of FLG that R18 gives the flag, leaves a flag that is set as it is, and changes nothing
else; the form that would clear a flag is performed by no instruction. -/
def Obligations.SetFlagSetsOneBit : Prop :=
  (∀ (i : Instr) (s t : State), exec i s = .next t → ∀ k, s.flg.getLsbD k = true → t.flg.getLsbD k = true) ∧
  ∀ (f : Flag) (s : State), let t := setFlag f s
    let pos := match f with
      | .equal => 0
      | .greater => 1
      | .carry => 2
      | .borrow => 3
    (∀ k, t.flg.getLsbD k = (s.flg.getLsbD k || decide (k = pos))) ∧
    (s.flg.getLsbD pos = true → t = s) ∧ t = { s with flg := t.flg }

/-- The flag rules of 10_state.md R20 and 41_alu.md R81: no instruction clears a flag, each changes only the flags R20 gives
it, and only JIT and JIF read FLG: any other instruction does the same to everything else whatever FLG holds. The last
clause compares two runs, which for ROL and ROR at undefined counts take the same draw (DESIGN CHOICE, log entry 5). -/
def Obligations.InstructionsOnlySetTheirFlags : Prop :=
  ∀ (i : Instr) (s t : State), exec i s = .next t →
    s.flg &&& t.flg = s.flg ∧ t.flg &&& ~~~(settable i) = s.flg &&& ~~~(settable i) ∧
    ((∀ f, i ≠ .jit f ∧ i ≠ .jif f) →
      ∀ v : Byte, ∃ w : Byte, exec i { s with flg := v } = .next { t with flg := w })

/-- Flags are sticky over whole runs, from every state (10_state.md R20, R21): a flag set at one point of a run is set at
every later one. -/
def Obligations.FlagsOnlyGrowAlongRuns : Prop :=
  ∀ (P : Params) (n : Nat) (s t : State), runUnder P n s = .next t →
    ∀ k, s.flg.getLsbD k = true → t.flg.getLsbD k = true

/-! ### Control transfer and halt -/

/-- JIT as 42_control.md gives it, in both modes of FLAG_INDEX_MODE, of which POSITION is decided (D3; log entry 3): PC
takes the pointer if the condition holds and stays otherwise; nothing else changes. -/
def Obligations.JitJumpsIfFlagSet : Prop :=
  (∀ P b, HasOpcode P b .jit → (P.flagIndexMode = .position → decodeUnder P b = .jit (.position (lowField b))) ∧
    (P.flagIndexMode = .bitmask → decodeUnder P b = .jit (.bitmask (lowField b)))) ∧
  ∀ (L : Nibble) (s : State),
    (∃ t, exec (.jit (.position L)) s = .next t ∧ OnlyPc s t ∧
      t.pc.val = if (s.flg.toNat >>> L.toNat) % 2 = 1 then (pointer s).toNat else s.pc.val) ∧
    ∃ t, exec (.jit (.bitmask L)) s = .next t ∧ OnlyPc s t ∧
      t.pc.val = if s.flg.toNat &&& L.toNat ≠ 0 then (pointer s).toNat else s.pc.val

/-- JIF as 42_control.md gives it, in both modes of FLAG_INDEX_MODE, of which POSITION is decided (D3; log entry 3): PC
takes the pointer if the condition does not hold and stays otherwise; nothing else changes. -/
def Obligations.JifJumpsIfFlagClear : Prop :=
  (∀ P b, HasOpcode P b .jif → (P.flagIndexMode = .position → decodeUnder P b = .jif (.position (lowField b))) ∧
    (P.flagIndexMode = .bitmask → decodeUnder P b = .jif (.bitmask (lowField b)))) ∧
  ∀ (L : Nibble) (s : State),
    (∃ t, exec (.jif (.position L)) s = .next t ∧ OnlyPc s t ∧
      t.pc.val = if (s.flg.toNat >>> L.toNat) % 2 = 0 then (pointer s).toNat else s.pc.val) ∧
    ∃ t, exec (.jif (.bitmask L)) s = .next t ∧ OnlyPc s t ∧
      t.pc.val = if s.flg.toNat &&& L.toNat = 0 then (pointer s).toNat else s.pc.val

/-- The corner of JIT and JIF in 42_control.md under POSITION (D3; log entry 3): with FLG's upper bits 0, as `State.Inv`
says, an index of 4 or more makes JIT do nothing and JIF an unconditional jump. -/
def Obligations.HighFlagIndexNeverSet : Prop :=
  ∀ (L : Nibble) (s : State), s.Inv → 4 ≤ L.toNat →
    exec (.jit (.position L)) s = .next s ∧
    ∃ t, exec (.jif (.position L)) s = .next t ∧ t.pc.val = (pointer s).toNat ∧ OnlyPc s t

/-- HLT as 42_control.md gives it: run becomes Halted and everything else is kept; PC keeps the HLT's address + 1, and no
step exists afterwards (D11). That the model says so by the named stop `Fault.halted` is its choice (DESIGN CHOICE, log
entry 9). -/
def Obligations.HltHaltsForGood : Prop :=
  (∀ (x : Nibble) (s : State), exec (.hlt x) s = .next { s with run := .halted }) ∧
  ∀ (P : Params) (s : State) (h : s.pc.val < 256), s.run = .running → HasOpcode P (currentByte s) .hlt →
    stepUnder P s = .next { fetched s h with run := .halted } ∧
    stepUnder P { fetched s h with run := .halted } = .fault .halted

/-- The seven reserved opcodes are no-ops, as 42_control.md gives them; that they are no-ops and not an error is the
spec's decision D9 (C4; log entry 8). PC advances and the boundary check acts. -/
def Obligations.ReservedOpcodesAreNoOps : Prop :=
  (∀ (x : Nibble) (s : State), exec (.push x) s = .next s ∧ exec (.pop x) s = .next s ∧ exec (.tak x) s = .next s ∧
    exec (.prn x) s = .next s ∧ exec (.cls x) s = .next s ∧ exec (.trp x) s = .next s ∧ exec (.res x) s = .next s) ∧
  ∀ (P : Params) (s : State) (h : s.pc.val < 256) (o : Opcode), s.run = .running →
    o ∈ [Opcode.push, .pop, .tak, .prn, .cls, .trp, .res] → HasOpcode P (currentByte s) o →
    stepUnder P s = .next { fetched s h with run := if s.pc.val = 255 then .halted else .running }

/-- R102: an opcode value that OPCODE_MAP sends to none executes as NOP; the reference map has none. -/
def Obligations.UnmappedOpcodeIsNop : Prop :=
  (∀ n : Nibble, (Config.refOpcodeMap n).isSome = true) ∧
  ∀ (P : Params) (s : State) (h : s.pc.val < 256), s.run = .running →
    P.opcodeMap (opcodeField (currentByte s)) = none →
    stepUnder P s = .next { fetched s h with run := if s.pc.val = 255 then .halted else .running }

/-! ### The machine -/

/-- R25: while Running, a step is the fetch's PC advance, the instruction the byte at PC decodes to, and the boundary
check; in Halted no step exists. `step` is the machine with the reference parameters. -/
def Obligations.StepRunsDecodedInstruction : Prop :=
  (∀ (P : Params) (s : State) (h : s.pc.val < 256) (i : Instr) (t : State), s.run = .running →
    decodeUnder P (currentByte s) = i → exec i (fetched s h) = .next t →
    stepUnder P s = .next (if 255 < t.pc.val then { t with run := .halted } else t)) ∧
  (∀ (s : State) (h : s.pc.val < 256) (i : Instr) (t : State), s.run = .running →
    decode (currentByte s) = i → exec i (fetched s h) = .next t →
    step s = .next (if 255 < t.pc.val then { t with run := .halted } else t)) ∧
  ∀ (P : Params) (s : State), s.run = .halted → ∀ t, stepUnder P s ≠ .next t

/-- R110: no instruction has a fault outcome, and every byte at every address completes a step. -/
def Obligations.NoInstructionFaults : Prop :=
  (∀ (i : Instr) (s : State), ∃ t, exec i s = .next t) ∧
  ∀ (P : Params) (s : State), s.run = .running → s.pc.val < 256 → ∃ t, stepUnder P s = .next t

/-- Halted is terminal, as 10_state.md gives it (the spec's decision D11; log entry 9): no step exists there, and the model
says so by the named stop `Fault.halted`. -/
def Obligations.HaltedHasNoStep : Prop :=
  ∀ (P : Params) (s : State), s.run = .halted → stepUnder P s = .fault .halted

/-- R24: the initial state is Running, only HLT and the boundary check move run to Halted, and nothing moves it back. -/
def Obligations.OnlyHltAndBoundaryHalt : Prop :=
  State.reset.run = .running ∧
  ∀ (P : Params) (s t : State), stepUnder P s = .next t →
    s.run = .running ∧ (t.run = .halted ↔ (∃ x, currentInstr P s = .hlt x) ∨ t.pc.val = 256)

/-- PC after every step (10_state.md R23, R26): one higher, or the pointer where a JIT or JIF is taken. -/
def Obligations.PcAdvancesOrJumps : Prop :=
  ∀ (P : Params) (s t : State), stepUnder P s = .next t →
    (TakesJump (currentInstr P s) s.flg → t.pc.val = (pointer s).toNat) ∧
    (¬ TakesJump (currentInstr P s) s.flg → t.pc.val = s.pc.val + 1)

/-- R27: PC exceeds 255 only after an instruction at 255 that did not write PC, and the step then halts with PC = 256; a
taken jump at 255 keeps running. -/
def Obligations.BoundaryCheckHaltsAt256 : Prop :=
  ∀ (P : Params) (s t : State), stepUnder P s = .next t →
    (255 < t.pc.val ↔ s.pc.val = 255 ∧ ¬ TakesJump (currentInstr P s) s.flg) ∧
    (255 < t.pc.val → t.pc.val = 256 ∧ t.run = .halted) ∧
    (s.pc.val = 255 → TakesJump (currentInstr P s) s.flg → t.pc.val ≤ 255 ∧ t.run = .running)

/-- Program as 20_memory.md R38 gives it: no instruction reads it as data and none writes it: on any other Program it does
the same to everything else, and it leaves Program as it is. The clause on another Program compares two runs, which for ROL
and ROR at undefined counts take the same draw (DESIGN CHOICE, log entry 5). -/
def Obligations.ProgramIsOnlyFetched : Prop :=
  (∀ (i : Instr) (s t : State) (p : Memory), exec i s = .next t →
    t.program = s.program ∧ exec i { s with program := p } = .next { t with program := p }) ∧
  ∀ (P : Params) (s t : State), stepUnder P s = .next t → ∀ x, progRead t x = progRead s x

/-- STO is the only writer of Data and LOD its only reader (20_memory.md R39; the spec's decision D19, C5; log entry 10).
On any other Data every instruction but LOD does the same to everything else; STO then writes the same byte at the same
address and leaves the other bytes of that Data, and any third instruction leaves that Data as it is. The two runs compared
take the same draw for ROL and ROR at undefined counts (DESIGN CHOICE, log entry 5). -/
def Obligations.DataOnlyByStoAndLod : Prop :=
  ∀ (i : Instr) (s t : State), exec i s = .next t →
    ((∀ m r, i ≠ .sto m r) → (∀ x, memRead t x = memRead s x) ∧ t.data = s.data) ∧
    ((∀ m r, i ≠ .sto m r) → (∀ r m, i ≠ .lod r m) →
      ∀ q : Memory, exec i { s with data := q } = .next { t with data := q }) ∧
    ∀ m r, i = .sto m r → ∀ q : Memory, ∃ q' : Memory, exec i { s with data := q } = .next { t with data := q' } ∧
      ∀ x : Addr, q'.read x.toNat = if x = pointer s then readReg r s else q.read x.toNat

/-- No step reads or writes SP (10_state.md R17): with any other value in SP it does the same to everything else. Both
runs take the same draw (log entry 5). -/
def Obligations.SpIsNeverUsed : Prop :=
  ∀ (P : Params) (s t : State) (v : Byte), stepUnder P s = .next t →
    t.sp = s.sp ∧ stepUnder P { s with sp := v } = .next { t with sp := v }

/-- The invariant of the core's states holds at reset and at launch with any image. -/
def Obligations.LaunchMeetsInvariant : Prop :=
  State.reset.Inv ∧ ∀ image : Vector Byte 256, (State.launch image).Inv

/-- Every step keeps the invariant, from every state that meets it, whatever the parameters are: both memories stay
canonical, FLG's upper bits stay 0 (10_state.md R21) and PC is an address of Program while Running (R22). -/
def Obligations.StepKeepsInvariant : Prop :=
  ∀ s t : State, s.Inv → (step s = .next t → t.Inv) ∧ ∀ P : Params, stepUnder P s = .next t → t.Inv

/-- R30, R31, R33: every register is 0, run is Running and every byte of Data is 0, at reset and at launch with any
image. -/
def Obligations.ResetValues : Prop :=
  ∀ (image : Vector Byte 256) (s : State), s = State.reset ∨ s = State.launch image →
    s.a = 0#8 ∧ s.d = 0#8 ∧ s.pl = 0#8 ∧ s.ph = 0#8 ∧ s.flg = 0#8 ∧ s.sp = 0#8 ∧ s.pc.val = 0 ∧ s.run = .running ∧
    ∀ x, memRead s x = 0#8

/-- Program at launch is the image (10_state.md R32; the spec's decision D12), a byte the image does not supply is 0, and
more than 256 bytes are no image (N13; the model's choice, log entry 4). -/
def Obligations.LaunchHoldsImage : Prop :=
  (∀ (image : Vector Byte 256) (x : Addr), progRead (State.launch image) x = image[x.toNat]'x.isLt) ∧
  ∀ bytes : List Byte, (256 < bytes.length → imageOf bytes = none) ∧
    (bytes.length ≤ 256 → ∃ image, imageOf bytes = some image ∧
      ∀ (k : Nat) (h : k < 256), image[k] = bytes.getD k 0#8)

/-- A run with no taken jump halts (70_reset_and_hazards.md R130): from PC = p, within 256 - p steps. -/
def Obligations.RunWithoutJumpsHalts : Prop :=
  ∀ (P : Params) (s : State), s.run = .running → s.pc.val < 256 →
    (∀ n t, runUnder P n s = .next t → t.run = .running → ¬ TakesJump (currentInstr P t) t.flg) →
    ∃ n t, n ≤ 256 - s.pc.val ∧ runUnder P n s = .next t ∧ t.run = .halted

/-- The state does not record what halted the run (10_state.md R28, D11; 60_exceptions.md R116): after a fetch from address
255, HLT and a no-op end the step in the same state. -/
def Obligations.HaltCauseIsNotRecorded : Prop :=
  ∀ (x y : Nibble) (s : State), s.pc.val = 256 →
    finish (exec (.hlt x) s) = finish (exec (.nop y) s) ∧
    finish (exec (.hlt x) s) = .next { s with run := .halted }

/-- The canonical form of a memory is canonical: two memories that read the same at each of the 256 addresses are the same
data (20_memory.md R37, R41, for the model's representation). -/
def Obligations.EqualReadsEqualMemory : Prop :=
  ∀ m n : Memory, m.wf → n.wf → (∀ x, x < 256 → m.read x = n.read x) → m = n

/-- The `advance` port (10_state.md R35, R36; the spec's decisions D10 and D17): withheld, or in Halted, nothing changes;
given while Running it is one step. -/
def Obligations.AdvancePermitsOneStep : Prop :=
  ∀ s : State, tick false s = .next s ∧ (s.halted = true → tick true s = .next s) ∧
    (s.halted = false → tick true s = step s) ∧ (s.halted = true ↔ s.run = .halted)
end

