-- ==== Sys2Proof/Laws/Encoding.lean ====
section
/-! SUPPORT. The fields of a byte put together from two nibbles, the codes of operands, and what OPCODE_MAP⁻¹ and
ALU_MAP⁻¹ answer. -/

namespace Sys2Proof

@[simp] theorem opcodeField_append (op low : Nibble) : opcodeField (op ++ low) = op := by
  revert op low; decide

@[simp] theorem lowField_append (op low : Nibble) : lowField (op ++ low) = low := by
  revert op low; decide

@[simp] theorem e1Field_append (op : Nibble) (e1 e2 : Pair) :
    e1Field (@HAppend.hAppend Nibble Nibble _ _ op (e1 ++ e2)) = e1 := by
  revert op e1 e2; decide

@[simp] theorem e2Field_append (op : Nibble) (e1 e2 : Pair) :
    e2Field (@HAppend.hAppend Nibble Nibble _ _ op (e1 ++ e2)) = e2 := by
  revert op e1 e2; decide

theorem opcodeField_append_lowField (b : Byte) : opcodeField b ++ lowField b = b := by revert b; decide

theorem e1Field_append_e2Field (b : Byte) : e1Field b ++ e2Field b = lowField b := by revert b; decide

@[simp] theorem AluOp.opcode_instr (op : AluOp) : op.instr.opcode = .alu := by cases op <;> rfl

@[simp] theorem AluOp.aluOp_instr (op : AluOp) : op.instr.aluOp = some op := by cases op <;> rfl

@[simp] theorem AluOp.flagIndex_instr (op : AluOp) : op.instr.flagIndex = none := by cases op <;> rfl

@[simp] theorem lowCode_instr (P : Params) (op : AluOp) : lowCode P op.instr = P.aluOf op := by cases op <;> rfl

@[simp] theorem selOf_selCode (r : Sel) : selOf (selCode r) = r := by cases r <;> rfl

@[simp] theorem selCode_selOf (e : Pair) : selCode (selOf e) = e := by revert e; decide

@[simp] theorem autoIndexOf_autoIndexCode (m : AutoIndex) : autoIndexOf (autoIndexCode m) = m := by cases m <;> rfl

@[simp] theorem autoIndexCode_autoIndexOf (e : Pair) : autoIndexCode (autoIndexOf e) = e := by revert e; decide

theorem flagIndexOf_mode (f : FlagIndex) : flagIndexOf f.mode (flagIndexCode f) = f := by cases f <;> rfl

/-- OPCODE_MAP⁻¹ answers a value that selects the opcode. -/
theorem Params.opcodeMap_of_opcodeOf {P : Params} {o : Opcode} {n : Nibble} (h : P.opcodeOf o = some n) :
    P.opcodeMap n = some o := by
  simpa using List.find?_some h

/-- ALU_MAP⁻¹ answers a value that selects the operation. -/
theorem Params.aluMap_of_aluOf {P : Params} {op : AluOp} {n : Nibble} (h : P.aluOf op = some n) :
    P.aluMap n = op := by
  simpa using List.find?_some h

theorem mem_nibbles (n : Nibble) : n ∈ nibbles := by revert n; decide

/-- An opcode that some value selects has an OPCODE_MAP⁻¹. -/
theorem Params.opcodeOf_isSome {P : Params} {o : Opcode} {n : Nibble} (h : P.opcodeMap n = some o) :
    (P.opcodeOf o).isSome = true := by
  simp only [Params.opcodeOf, List.find?_isSome, decide_eq_true_eq]
  exact ⟨n, mem_nibbles n, h⟩

/-- An operation that some value selects has an ALU_MAP⁻¹. -/
theorem Params.aluOf_isSome {P : Params} {op : AluOp} {n : Nibble} (h : P.aluMap n = op) :
    (P.aluOf op).isSome = true := by
  simp only [Params.aluOf, List.find?_isSome, decide_eq_true_eq]
  exact ⟨n, mem_nibbles n, h⟩

/-- All that an encoding can be: the instruction is well formed, and its byte is OPCODE_MAP⁻¹ over the low half. -/
theorem encodeUnder_some {P : Params} {i : Instr} {b : Byte} (h : encodeUnder P i = some b) :
    i.WellFormed P ∧ ∃ op low, P.opcodeOf i.opcode = some op ∧ lowCode P i = some low ∧ b = op ++ low := by
  unfold encodeUnder at h
  split at h
  · next wf =>
    split at h
    · next op low hop hlow => exact ⟨wf, op, low, hop, hlow, (Option.some.inj h).symm⟩
    · simp at h
  · simp at h

end Sys2Proof
end

