-- ==== Sys2Proof/Laws/State.lean ====
section
/-! SUPPORT. Each field of the state after each named update of it, so that no later proof unfolds a record update. -/

namespace Sys2Proof.Machine

/-! ### `memWrite` -/

@[simp] theorem memWrite_a (s : State) (x : Addr) (v : Byte) : (memWrite s x v).a = s.a := rfl

@[simp] theorem memWrite_d (s : State) (x : Addr) (v : Byte) : (memWrite s x v).d = s.d := rfl

@[simp] theorem memWrite_pl (s : State) (x : Addr) (v : Byte) : (memWrite s x v).pl = s.pl := rfl

@[simp] theorem memWrite_ph (s : State) (x : Addr) (v : Byte) : (memWrite s x v).ph = s.ph := rfl

@[simp] theorem memWrite_flg (s : State) (x : Addr) (v : Byte) : (memWrite s x v).flg = s.flg := rfl

@[simp] theorem memWrite_sp (s : State) (x : Addr) (v : Byte) : (memWrite s x v).sp = s.sp := rfl

@[simp] theorem memWrite_pc (s : State) (x : Addr) (v : Byte) : (memWrite s x v).pc = s.pc := rfl

@[simp] theorem memWrite_run (s : State) (x : Addr) (v : Byte) : (memWrite s x v).run = s.run := rfl

@[simp] theorem memWrite_program (s : State) (x : Addr) (v : Byte) : (memWrite s x v).program = s.program := rfl

@[simp] theorem memWrite_data (s : State) (x : Addr) (v : Byte) : (memWrite s x v).data = s.data.write x.toNat v := rfl

@[simp] theorem memWrite_draws (s : State) (x : Addr) (v : Byte) : (memWrite s x v).draws = s.draws := rfl

/-! ### `jumpTo` -/

@[simp] theorem jumpTo_a (x : Addr) (s : State) : (jumpTo x s).a = s.a := rfl

@[simp] theorem jumpTo_d (x : Addr) (s : State) : (jumpTo x s).d = s.d := rfl

@[simp] theorem jumpTo_pl (x : Addr) (s : State) : (jumpTo x s).pl = s.pl := rfl

@[simp] theorem jumpTo_ph (x : Addr) (s : State) : (jumpTo x s).ph = s.ph := rfl

@[simp] theorem jumpTo_flg (x : Addr) (s : State) : (jumpTo x s).flg = s.flg := rfl

@[simp] theorem jumpTo_sp (x : Addr) (s : State) : (jumpTo x s).sp = s.sp := rfl

@[simp] theorem jumpTo_pc (x : Addr) (s : State) : (jumpTo x s).pc = pcOf x := rfl

@[simp] theorem jumpTo_run (x : Addr) (s : State) : (jumpTo x s).run = s.run := rfl

@[simp] theorem jumpTo_program (x : Addr) (s : State) : (jumpTo x s).program = s.program := rfl

@[simp] theorem jumpTo_data (x : Addr) (s : State) : (jumpTo x s).data = s.data := rfl

@[simp] theorem jumpTo_draws (x : Addr) (s : State) : (jumpTo x s).draws = s.draws := rfl

/-! ### `halt` -/

@[simp] theorem halt_a (s : State) : (halt s).a = s.a := rfl

@[simp] theorem halt_d (s : State) : (halt s).d = s.d := rfl

@[simp] theorem halt_pl (s : State) : (halt s).pl = s.pl := rfl

@[simp] theorem halt_ph (s : State) : (halt s).ph = s.ph := rfl

@[simp] theorem halt_flg (s : State) : (halt s).flg = s.flg := rfl

@[simp] theorem halt_sp (s : State) : (halt s).sp = s.sp := rfl

@[simp] theorem halt_pc (s : State) : (halt s).pc = s.pc := rfl

@[simp] theorem halt_run (s : State) : (halt s).run = .halted := rfl

@[simp] theorem halt_program (s : State) : (halt s).program = s.program := rfl

@[simp] theorem halt_data (s : State) : (halt s).data = s.data := rfl

@[simp] theorem halt_draws (s : State) : (halt s).draws = s.draws := rfl

/-! ### `storePointer` -/

@[simp] theorem storePointer_a (x : Addr) (s : State) : (storePointer x s).a = s.a := rfl

@[simp] theorem storePointer_d (x : Addr) (s : State) : (storePointer x s).d = s.d := rfl

@[simp] theorem storePointer_pl (x : Addr) (s : State) : (storePointer x s).pl = x &&& 0x0F#8 := rfl

@[simp] theorem storePointer_ph (x : Addr) (s : State) : (storePointer x s).ph = x >>> 4 := rfl

@[simp] theorem storePointer_flg (x : Addr) (s : State) : (storePointer x s).flg = s.flg := rfl

@[simp] theorem storePointer_sp (x : Addr) (s : State) : (storePointer x s).sp = s.sp := rfl

@[simp] theorem storePointer_pc (x : Addr) (s : State) : (storePointer x s).pc = s.pc := rfl

@[simp] theorem storePointer_run (x : Addr) (s : State) : (storePointer x s).run = s.run := rfl

@[simp] theorem storePointer_program (x : Addr) (s : State) : (storePointer x s).program = s.program := rfl

@[simp] theorem storePointer_data (x : Addr) (s : State) : (storePointer x s).data = s.data := rfl

@[simp] theorem storePointer_draws (x : Addr) (s : State) : (storePointer x s).draws = s.draws := rfl

/-! ### `setFlag` -/

@[simp] theorem setFlag_a (f : Flag) (s : State) : (setFlag f s).a = s.a := rfl

@[simp] theorem setFlag_d (f : Flag) (s : State) : (setFlag f s).d = s.d := rfl

@[simp] theorem setFlag_pl (f : Flag) (s : State) : (setFlag f s).pl = s.pl := rfl

@[simp] theorem setFlag_ph (f : Flag) (s : State) : (setFlag f s).ph = s.ph := rfl

@[simp] theorem setFlag_flg (f : Flag) (s : State) : (setFlag f s).flg = s.flg ||| (1#8 <<< flagPos f) := rfl

@[simp] theorem setFlag_sp (f : Flag) (s : State) : (setFlag f s).sp = s.sp := rfl

@[simp] theorem setFlag_pc (f : Flag) (s : State) : (setFlag f s).pc = s.pc := rfl

@[simp] theorem setFlag_run (f : Flag) (s : State) : (setFlag f s).run = s.run := rfl

@[simp] theorem setFlag_program (f : Flag) (s : State) : (setFlag f s).program = s.program := rfl

@[simp] theorem setFlag_data (f : Flag) (s : State) : (setFlag f s).data = s.data := rfl

@[simp] theorem setFlag_draws (f : Flag) (s : State) : (setFlag f s).draws = s.draws := rfl

/-! ### `draw` -/

@[simp] theorem draw_snd_a (s : State) : (draw s).2.a = s.a := rfl

@[simp] theorem draw_snd_d (s : State) : (draw s).2.d = s.d := rfl

@[simp] theorem draw_snd_pl (s : State) : (draw s).2.pl = s.pl := rfl

@[simp] theorem draw_snd_ph (s : State) : (draw s).2.ph = s.ph := rfl

@[simp] theorem draw_snd_flg (s : State) : (draw s).2.flg = s.flg := rfl

@[simp] theorem draw_snd_sp (s : State) : (draw s).2.sp = s.sp := rfl

@[simp] theorem draw_snd_pc (s : State) : (draw s).2.pc = s.pc := rfl

@[simp] theorem draw_snd_run (s : State) : (draw s).2.run = s.run := rfl

@[simp] theorem draw_snd_program (s : State) : (draw s).2.program = s.program := rfl

@[simp] theorem draw_snd_data (s : State) : (draw s).2.data = s.data := rfl

@[simp] theorem draw_snd_draws (s : State) : (draw s).2.draws = s.draws + 1 := rfl

/-! ### `writeReg` -/

@[simp] theorem writeReg_a (r : Sel) (v : Byte) (s : State) : (writeReg r v s).a = if r = .a then v else s.a := by cases r <;> rfl

@[simp] theorem writeReg_d (r : Sel) (v : Byte) (s : State) : (writeReg r v s).d = if r = .d then v else s.d := by cases r <;> rfl

@[simp] theorem writeReg_pl (r : Sel) (v : Byte) (s : State) : (writeReg r v s).pl = if r = .pl then v else s.pl := by cases r <;> rfl

@[simp] theorem writeReg_ph (r : Sel) (v : Byte) (s : State) : (writeReg r v s).ph = if r = .ph then v else s.ph := by cases r <;> rfl

@[simp] theorem writeReg_flg (r : Sel) (v : Byte) (s : State) : (writeReg r v s).flg = s.flg := by cases r <;> rfl

@[simp] theorem writeReg_sp (r : Sel) (v : Byte) (s : State) : (writeReg r v s).sp = s.sp := by cases r <;> rfl

@[simp] theorem writeReg_pc (r : Sel) (v : Byte) (s : State) : (writeReg r v s).pc = s.pc := by cases r <;> rfl

@[simp] theorem writeReg_run (r : Sel) (v : Byte) (s : State) : (writeReg r v s).run = s.run := by cases r <;> rfl

@[simp] theorem writeReg_program (r : Sel) (v : Byte) (s : State) : (writeReg r v s).program = s.program := by cases r <;> rfl

@[simp] theorem writeReg_data (r : Sel) (v : Byte) (s : State) : (writeReg r v s).data = s.data := by cases r <;> rfl

@[simp] theorem writeReg_draws (r : Sel) (v : Byte) (s : State) : (writeReg r v s).draws = s.draws := by cases r <;> rfl

/-! ### `setFlagIf` -/

@[simp] theorem setFlagIf_a (c : Bool) (f : Flag) (s : State) : (setFlagIf c f s).a = s.a := by cases c <;> rfl

@[simp] theorem setFlagIf_d (c : Bool) (f : Flag) (s : State) : (setFlagIf c f s).d = s.d := by cases c <;> rfl

@[simp] theorem setFlagIf_pl (c : Bool) (f : Flag) (s : State) : (setFlagIf c f s).pl = s.pl := by cases c <;> rfl

@[simp] theorem setFlagIf_ph (c : Bool) (f : Flag) (s : State) : (setFlagIf c f s).ph = s.ph := by cases c <;> rfl

@[simp] theorem setFlagIf_flg (c : Bool) (f : Flag) (s : State) : (setFlagIf c f s).flg = if c then s.flg ||| (1#8 <<< flagPos f) else s.flg := by cases c <;> rfl

@[simp] theorem setFlagIf_sp (c : Bool) (f : Flag) (s : State) : (setFlagIf c f s).sp = s.sp := by cases c <;> rfl

@[simp] theorem setFlagIf_pc (c : Bool) (f : Flag) (s : State) : (setFlagIf c f s).pc = s.pc := by cases c <;> rfl

@[simp] theorem setFlagIf_run (c : Bool) (f : Flag) (s : State) : (setFlagIf c f s).run = s.run := by cases c <;> rfl

@[simp] theorem setFlagIf_program (c : Bool) (f : Flag) (s : State) : (setFlagIf c f s).program = s.program := by cases c <;> rfl

@[simp] theorem setFlagIf_data (c : Bool) (f : Flag) (s : State) : (setFlagIf c f s).data = s.data := by cases c <;> rfl

@[simp] theorem setFlagIf_draws (c : Bool) (f : Flag) (s : State) : (setFlagIf c f s).draws = s.draws := by cases c <;> rfl

/-! ### `boundaryCheck` -/

@[simp] theorem boundaryCheck_a (s : State) : (boundaryCheck s).a = s.a := by
  unfold boundaryCheck; split <;> rfl

@[simp] theorem boundaryCheck_d (s : State) : (boundaryCheck s).d = s.d := by
  unfold boundaryCheck; split <;> rfl

@[simp] theorem boundaryCheck_pl (s : State) : (boundaryCheck s).pl = s.pl := by
  unfold boundaryCheck; split <;> rfl

@[simp] theorem boundaryCheck_ph (s : State) : (boundaryCheck s).ph = s.ph := by
  unfold boundaryCheck; split <;> rfl

@[simp] theorem boundaryCheck_flg (s : State) : (boundaryCheck s).flg = s.flg := by
  unfold boundaryCheck; split <;> rfl

@[simp] theorem boundaryCheck_sp (s : State) : (boundaryCheck s).sp = s.sp := by
  unfold boundaryCheck; split <;> rfl

@[simp] theorem boundaryCheck_pc (s : State) : (boundaryCheck s).pc = s.pc := by
  unfold boundaryCheck; split <;> rfl

@[simp] theorem boundaryCheck_run (s : State) : (boundaryCheck s).run = if 255 < s.pc.val then .halted else s.run := by
  unfold boundaryCheck; split <;> rfl

@[simp] theorem boundaryCheck_program (s : State) : (boundaryCheck s).program = s.program := by
  unfold boundaryCheck; split <;> rfl

@[simp] theorem boundaryCheck_data (s : State) : (boundaryCheck s).data = s.data := by
  unfold boundaryCheck; split <;> rfl

@[simp] theorem boundaryCheck_draws (s : State) : (boundaryCheck s).draws = s.draws := by
  unfold boundaryCheck; split <;> rfl

/-! ### `carryResult` -/

@[simp] theorem carryResult_a (raw : Int) (s : State) : (carryResult raw s).a = trunc8 (raw % 16) := by
  simp [carryResult]

@[simp] theorem carryResult_d (raw : Int) (s : State) : (carryResult raw s).d = s.d := by
  simp [carryResult]

@[simp] theorem carryResult_pl (raw : Int) (s : State) : (carryResult raw s).pl = s.pl := by
  simp [carryResult]

@[simp] theorem carryResult_ph (raw : Int) (s : State) : (carryResult raw s).ph = s.ph := by
  simp [carryResult]

@[simp] theorem carryResult_flg (raw : Int) (s : State) : (carryResult raw s).flg = if 16 ≤ raw then s.flg ||| (1#8 <<< flagPos .carry) else s.flg := by
  simp [carryResult]

@[simp] theorem carryResult_sp (raw : Int) (s : State) : (carryResult raw s).sp = s.sp := by
  simp [carryResult]

@[simp] theorem carryResult_pc (raw : Int) (s : State) : (carryResult raw s).pc = s.pc := by
  simp [carryResult]

@[simp] theorem carryResult_run (raw : Int) (s : State) : (carryResult raw s).run = s.run := by
  simp [carryResult]

@[simp] theorem carryResult_program (raw : Int) (s : State) : (carryResult raw s).program = s.program := by
  simp [carryResult]

@[simp] theorem carryResult_data (raw : Int) (s : State) : (carryResult raw s).data = s.data := by
  simp [carryResult]

@[simp] theorem carryResult_draws (raw : Int) (s : State) : (carryResult raw s).draws = s.draws := by
  simp [carryResult]

/-! ### `borrowResult` -/

@[simp] theorem borrowResult_a (raw : Int) (s : State) : (borrowResult raw s).a = trunc8 (raw % 16) := by
  simp [borrowResult]

@[simp] theorem borrowResult_d (raw : Int) (s : State) : (borrowResult raw s).d = s.d := by
  simp [borrowResult]

@[simp] theorem borrowResult_pl (raw : Int) (s : State) : (borrowResult raw s).pl = s.pl := by
  simp [borrowResult]

@[simp] theorem borrowResult_ph (raw : Int) (s : State) : (borrowResult raw s).ph = s.ph := by
  simp [borrowResult]

@[simp] theorem borrowResult_flg (raw : Int) (s : State) : (borrowResult raw s).flg = if raw < 0 then s.flg ||| (1#8 <<< flagPos .borrow) else s.flg := by
  simp [borrowResult]

@[simp] theorem borrowResult_sp (raw : Int) (s : State) : (borrowResult raw s).sp = s.sp := by
  simp [borrowResult]

@[simp] theorem borrowResult_pc (raw : Int) (s : State) : (borrowResult raw s).pc = s.pc := by
  simp [borrowResult]

@[simp] theorem borrowResult_run (raw : Int) (s : State) : (borrowResult raw s).run = s.run := by
  simp [borrowResult]

@[simp] theorem borrowResult_program (raw : Int) (s : State) : (borrowResult raw s).program = s.program := by
  simp [borrowResult]

@[simp] theorem borrowResult_data (raw : Int) (s : State) : (borrowResult raw s).data = s.data := by
  simp [borrowResult]

@[simp] theorem borrowResult_draws (raw : Int) (s : State) : (borrowResult raw s).draws = s.draws := by
  simp [borrowResult]

/-! ### `advanced` -/

@[simp] theorem advanced_a (s : State) (h : s.pc.val < 256) : (advanced s h).a = s.a := rfl

@[simp] theorem advanced_d (s : State) (h : s.pc.val < 256) : (advanced s h).d = s.d := rfl

@[simp] theorem advanced_pl (s : State) (h : s.pc.val < 256) : (advanced s h).pl = s.pl := rfl

@[simp] theorem advanced_ph (s : State) (h : s.pc.val < 256) : (advanced s h).ph = s.ph := rfl

@[simp] theorem advanced_flg (s : State) (h : s.pc.val < 256) : (advanced s h).flg = s.flg := rfl

@[simp] theorem advanced_sp (s : State) (h : s.pc.val < 256) : (advanced s h).sp = s.sp := rfl

@[simp] theorem advanced_pc (s : State) (h : s.pc.val < 256) : (advanced s h).pc = ⟨s.pc.val + 1, Nat.succ_lt_succ h⟩ := rfl

@[simp] theorem advanced_run (s : State) (h : s.pc.val < 256) : (advanced s h).run = if s.pc.val = 255 then .halted else s.run := rfl

@[simp] theorem advanced_program (s : State) (h : s.pc.val < 256) : (advanced s h).program = s.program := rfl

@[simp] theorem advanced_data (s : State) (h : s.pc.val < 256) : (advanced s h).data = s.data := rfl

@[simp] theorem advanced_draws (s : State) (h : s.pc.val < 256) : (advanced s h).draws = s.draws := rfl

/-! ### `autoIndex` and `readReg` -/

@[simp] theorem autoIndex_a (m : AutoIndex) (s : State) : (autoIndex m s).a = s.a := by cases m <;> rfl

@[simp] theorem autoIndex_d (m : AutoIndex) (s : State) : (autoIndex m s).d = s.d := by cases m <;> rfl

@[simp] theorem autoIndex_flg (m : AutoIndex) (s : State) : (autoIndex m s).flg = s.flg := by cases m <;> rfl

@[simp] theorem autoIndex_sp (m : AutoIndex) (s : State) : (autoIndex m s).sp = s.sp := by cases m <;> rfl

@[simp] theorem autoIndex_pc (m : AutoIndex) (s : State) : (autoIndex m s).pc = s.pc := by cases m <;> rfl

@[simp] theorem autoIndex_run (m : AutoIndex) (s : State) : (autoIndex m s).run = s.run := by cases m <;> rfl

@[simp] theorem autoIndex_program (m : AutoIndex) (s : State) : (autoIndex m s).program = s.program := by cases m <;> rfl

@[simp] theorem autoIndex_data (m : AutoIndex) (s : State) : (autoIndex m s).data = s.data := by cases m <;> rfl

@[simp] theorem autoIndex_draws (m : AutoIndex) (s : State) : (autoIndex m s).draws = s.draws := by cases m <;> rfl

@[simp] theorem readReg_writeReg (r q : Sel) (v : Byte) (s : State) :
    readReg r (writeReg q v s) = if r = q then v else readReg r s := by
  cases r <;> cases q <;> rfl

@[simp] theorem writeReg_readReg_self (r : Sel) (s : State) : writeReg r (readReg r s) s = s := by
  cases r <;> rfl

@[simp] theorem draw_fst (s : State) : (draw s).1 = Config.undef8 s.draws := rfl

end Sys2Proof.Machine
end

