-- ==== Sys2Proof/Laws/Memory.lean ====
section
/-! SUPPORT. The laws of a memory: what a write makes each address read as, and that every operation keeps the canonical
form. They hold of every list of cells, canonical or not, unless `wf` is a premise. -/

namespace Sys2Proof.Machine

@[simp] theorem Memory.read_nil (x : Nat) : Memory.read [] x = Memory.blank := rfl

theorem Memory.read_cons (c : Host.Cell) (m : Memory) (x : Nat) :
    Memory.read (c :: m) x = if c.1 = x then c.2 else m.read x := rfl

theorem Memory.read_of_absent {m : Memory} {x : Nat} (h : ∀ c ∈ m, c.1 ≠ x) : m.read x = Memory.blank := by
  induction m with
  | nil => rfl
  | cons c m ih =>
    rw [Memory.read_cons, if_neg (h c (by simp))]
    exact ih fun e he => h e (by simp [he])

theorem Memory.read_erase_same (m : Memory) (a : Nat) : (m.erase a).read a = Memory.blank :=
  Memory.read_of_absent fun c hc => by
    have := (List.mem_filter.mp hc).2
    simpa using this

theorem Memory.read_erase_other (m : Memory) {a x : Nat} (h : x ≠ a) : (m.erase a).read x = m.read x := by
  induction m with
  | nil => rfl
  | cons c m ih =>
    unfold Memory.erase at ih ⊢
    by_cases hc : c.1 = a
    · have hcx : c.1 ≠ x := by omega
      simp [hc, Memory.read_cons, ih]
      omega
    · simp [hc, Memory.read_cons, ih]

theorem Memory.read_insert_other (m : Memory) {a x : Nat} (v : Byte) (h : x ≠ a) :
    (m.insert a v).read x = m.read x := by
  induction m with
  | nil => simp [Memory.insert, Memory.read_cons, Ne.symm h]
  | cons c m ih =>
    unfold Memory.insert
    split
    · simp [Memory.read_cons, Ne.symm h]
    · simp [Memory.read_cons, ih]

theorem Memory.read_insert_same {m : Memory} {a : Nat} (v : Byte) (h : ∀ c ∈ m, c.1 ≠ a) :
    (m.insert a v).read a = v := by
  induction m with
  | nil => simp [Memory.insert, Memory.read_cons]
  | cons c m ih =>
    have hc : c.1 ≠ a := h c (by simp)
    unfold Memory.insert
    split
    · simp [Memory.read_cons]
    · simp [Memory.read_cons, hc, ih fun e he => h e (by simp [he])]

theorem Memory.erase_absent (m : Memory) (a : Nat) : ∀ c ∈ m.erase a, c.1 ≠ a := fun c hc => by
  have := (List.mem_filter.mp hc).2
  simpa using this

/-- A read after a write to the same address gives the byte written. -/
@[simp] theorem Memory.read_write_same (m : Memory) (a : Nat) (v : Byte) : (m.write a v).read a = v := by
  unfold Memory.write
  split
  · next h => rw [Memory.read_erase_same, h]
  · exact Memory.read_insert_same v (m.erase_absent a)

/-- A write leaves every other address alone. -/
theorem Memory.read_write_other (m : Memory) {a x : Nat} (v : Byte) (h : x ≠ a) :
    (m.write a v).read x = m.read x := by
  unfold Memory.write
  split
  · exact m.read_erase_other h
  · rw [Memory.read_insert_other _ _ h, m.read_erase_other h]

theorem Memory.mem_insert {m : Memory} {a : Nat} {v : Byte} {c : Host.Cell} (h : c ∈ m.insert a v) :
    c = (a, v) ∨ c ∈ m := by
  induction m with
  | nil => simpa [Memory.insert] using h
  | cons e m ih =>
    unfold Memory.insert at h
    split at h
    · simpa using h
    · rcases List.mem_cons.mp h with rfl | h
      · simp
      · rcases ih h with h | h <;> simp [h]

theorem Memory.wf_erase {m : Memory} (h : m.wf) (a : Nat) : (m.erase a).wf :=
  ⟨h.1.filter _, fun c hc => h.2 c (List.mem_filter.mp hc).1⟩

theorem Memory.wf_insert {m : Memory} (h : m.wf) {a : Nat} {v : Byte} (ha : a < 256) (hv : v ≠ Memory.blank)
    (absent : ∀ c ∈ m, c.1 ≠ a) : (m.insert a v).wf := by
  refine ⟨?_, fun c hc => ?_⟩
  · have sorted := h.1
    clear h
    induction m with
    | nil => simp [Memory.insert]
    | cons e m ih =>
      obtain ⟨he, hm⟩ := List.pairwise_cons.mp sorted
      unfold Memory.insert
      split
      · next hlt =>
        refine List.pairwise_cons.mpr ⟨fun c hc => ?_, sorted⟩
        rcases List.mem_cons.mp hc with rfl | hc
        · exact hlt
        · exact Nat.lt_trans hlt (he c hc)
      · next hge =>
        refine List.pairwise_cons.mpr ⟨fun c hc => ?_, ih (fun c hc => absent c (by simp [hc])) hm⟩
        rcases Memory.mem_insert hc with rfl | hc
        · have := absent e (by simp)
          simp only
          omega
        · exact he c hc
  · rcases Memory.mem_insert hc with rfl | hc
    · exact ⟨ha, hv⟩
    · exact h.2 c hc

/-- A write inside the space keeps the canonical form. -/
theorem Memory.wf_write {m : Memory} (h : m.wf) {a : Nat} (ha : a < 256) (v : Byte) : (m.write a v).wf := by
  unfold Memory.write
  split
  · exact Memory.wf_erase h a
  · next hv => exact Memory.wf_insert (Memory.wf_erase h a) ha hv (m.erase_absent a)

/-- `ofBytes` lists addresses from `start` up to the end of the bytes only. -/
theorem Memory.mem_ofBytes {start : Nat} {bytes : List Byte} {c : Host.Cell} (h : c ∈ Memory.ofBytes start bytes) :
    start ≤ c.1 ∧ c.1 < start + bytes.length ∧ c.2 ≠ Memory.blank := by
  induction bytes generalizing start with
  | nil => simp [Memory.ofBytes] at h
  | cons v rest ih =>
    unfold Memory.ofBytes at h
    simp only [List.length_cons]
    split at h
    · obtain ⟨h1, h2, h3⟩ := ih h
      exact ⟨by omega, by omega, h3⟩
    · next hv =>
      rcases List.mem_cons.mp h with rfl | h
      · exact ⟨by simp, by simp, hv⟩
      · obtain ⟨h1, h2, h3⟩ := ih h
        exact ⟨by omega, by omega, h3⟩

/-- Bytes laid out within the space are a canonical memory. -/
theorem Memory.wf_ofBytes {start : Nat} {bytes : List Byte} (h : start + bytes.length ≤ 256) :
    (Memory.ofBytes start bytes).wf := by
  refine ⟨?_, fun c hc => ?_⟩
  · clear h
    induction bytes generalizing start with
    | nil => simp [Memory.ofBytes]
    | cons v rest ih =>
      unfold Memory.ofBytes
      split
      · exact ih
      · refine List.pairwise_cons.mpr ⟨fun c hc => ?_, ih⟩
        have := (Memory.mem_ofBytes hc).1
        simp only
        omega
  · obtain ⟨_, h2, h3⟩ := Memory.mem_ofBytes hc
    exact ⟨by omega, h3⟩

/-- What each address reads as in bytes laid out from `start`. -/
theorem Memory.read_ofBytes (start : Nat) (bytes : List Byte) (k : Nat) :
    (Memory.ofBytes start bytes).read (start + k) = bytes.getD k Memory.blank := by
  induction bytes generalizing start k with
  | nil => simp [Memory.ofBytes]
  | cons v rest ih =>
    unfold Memory.ofBytes
    cases k with
    | zero =>
      split
      · next hv =>
        rw [Memory.read_of_absent fun c hc => ?_]
        · simp [hv]
        · have := (Memory.mem_ofBytes hc).1
          omega
      · simp [Memory.read_cons]
    | succ k =>
      have shift : start + (k + 1) = start + 1 + k := by omega
      split
      · rw [shift, ih]; simp
      · rw [Memory.read_cons, if_neg (by simp), shift, ih]; simp

theorem Memory.wf_reset_program : State.reset.program.wf := by decide

theorem Memory.wf_reset_data : State.reset.data.wf := by decide

/-! ### `memRead`, `memWrite` and `progRead` -/

@[simp] theorem memRead_memWrite_same (s : State) (x : Addr) (v : Byte) : memRead (memWrite s x v) x = v := by
  simp [memRead]

theorem memRead_memWrite_other (s : State) {x y : Addr} (v : Byte) (h : y ≠ x) :
    memRead (memWrite s x v) y = memRead s y := by
  simp only [memRead, memWrite_data]
  exact Memory.read_write_other _ v fun e => h (BitVec.eq_of_toNat_eq e)

@[simp] theorem memWrite_data_wf {s : State} (h : s.data.wf) (x : Addr) (v : Byte) : (memWrite s x v).data.wf :=
  Memory.wf_write h x.isLt v

/-- States with the same two memories read the same everywhere. -/
theorem sameMemory_of_eq {s t : State} (hd : t.data = s.data) (hp : t.program = s.program) : SameMemory s t :=
  ⟨fun x => by simp [memRead, hd], fun x => by simp [progRead, hp]⟩

@[simp] theorem memRead_writeReg (r : Sel) (v : Byte) (s : State) (x : Addr) :
    memRead (writeReg r v s) x = memRead s x := by simp [memRead]

@[simp] theorem memRead_autoIndex (m : AutoIndex) (s : State) (x : Addr) :
    memRead (autoIndex m s) x = memRead s x := by simp [memRead]

end Sys2Proof.Machine
end

