-- ==== Sys2Proof/Laws/PerInstr.lean ====
section
/-! SUPPORT. Facts about every instruction as syntax, one lemma per constructor. -/

namespace Sys2Proof.Laws.EncodedOpcode

/-- On every machine that has a byte for the instruction, the byte's upper nibble selects the instruction's opcode
(spec 30_encoding.md R57, R66). -/
def Statement (i : Instr) : Prop :=
  ∀ (P : Params) (b : Byte), encodeUnder P i = some b → P.opcodeMap (opcodeField b) = some i.opcode

/-- It holds whatever the instruction is: the encoder takes the upper nibble from OPCODE_MAP⁻¹. -/
theorem holds (i : Instr) : Statement i := fun P b h => by
  obtain ⟨_, op, low, hop, _, rfl⟩ := encodeUnder_some h
  rw [opcodeField_append]
  exact Params.opcodeMap_of_opcodeOf hop

theorem nop (x : Nibble) : Statement (.nop x) := holds _

theorem mov (rd rs : Sel) : Statement (.mov rd rs) := holds _

theorem ina (imm : Nibble) : Statement (.ina imm) := holds _

theorem sto (m : AutoIndex) (rs : Sel) : Statement (.sto m rs) := holds _

theorem lod (rd : Sel) (m : AutoIndex) : Statement (.lod rd m) := holds _

theorem add : Statement .add := holds _

theorem sub : Statement .sub := holds _

theorem inc : Statement .inc := holds _

theorem dec : Statement .dec := holds _

theorem cmp : Statement .cmp := holds _

theorem not : Statement .not := holds _

theorem and : Statement .and := holds _

theorem nand : Statement .nand := holds _

theorem or : Statement .or := holds _

theorem nor : Statement .nor := holds _

theorem xor : Statement .xor := holds _

theorem xnor : Statement .xnor := holds _

theorem shl : Statement .shl := holds _

theorem shr : Statement .shr := holds _

theorem rol : Statement .rol := holds _

theorem ror : Statement .ror := holds _

theorem jit (f : FlagIndex) : Statement (.jit f) := holds _

theorem jif (f : FlagIndex) : Statement (.jif f) := holds _

theorem push (x : Nibble) : Statement (.push x) := holds _

theorem pop (x : Nibble) : Statement (.pop x) := holds _

theorem tak (x : Nibble) : Statement (.tak x) := holds _

theorem prn (x : Nibble) : Statement (.prn x) := holds _

theorem cls (x : Nibble) : Statement (.cls x) := holds _

theorem hlt (x : Nibble) : Statement (.hlt x) := holds _

theorem trp (x : Nibble) : Statement (.trp x) := holds _

theorem res (x : Nibble) : Statement (.res x) := holds _

end Sys2Proof.Laws.EncodedOpcode
end

