-- ==== Sys2Proof/Laws/Step.lean ====
section
/-! SUPPORT. What the parts of a step can do: fetch, the boundary check, and the step as a whole, each said once, so that
later proofs cite it and unfold none of them. -/

namespace Sys2Proof.Machine

/-- A state whose PC is an address of Program has a byte to fetch, and PC is then one higher. -/
theorem fetch_of_lt {s : State} (h : s.pc.val < 256) :
    fetch s = some (currentByte s, { s with pc := ⟨s.pc.val + 1, Nat.succ_lt_succ h⟩ }) := by
  simp [fetch, h, currentByte]

/-- No other state has. -/
theorem fetch_eq_none {s : State} (h : ¬ s.pc.val < 256) : fetch s = none := by simp [fetch, h]

theorem boundaryCheck_of_le {s : State} (h : s.pc.val ≤ 255) : boundaryCheck s = s := by
  simp [boundaryCheck, Nat.not_lt.mpr h]

theorem boundaryCheck_of_lt {s : State} (h : 255 < s.pc.val) : boundaryCheck s = halt s := by
  simp [boundaryCheck, h]

/-- The boundary check after an instruction that left PC where the fetch put it. -/
theorem boundaryCheck_fetched (s : State) (h : s.pc.val < 256) :
    boundaryCheck { s with pc := ⟨s.pc.val + 1, Nat.succ_lt_succ h⟩ } = advanced s h := by
  unfold boundaryCheck advanced
  by_cases e : s.pc.val = 255
  · simp [e, halt]
  · have : ¬ 255 < s.pc.val + 1 := by omega
    simp [e, this]

theorem finish_next {o : Host.Outcome State Fault Refusal} {t : State} (h : finish o = .next t) :
    ∃ u, o = .next u ∧ t = boundaryCheck u := by
  cases o with
  | next u => exact ⟨u, rfl, by simpa [finish] using h.symm⟩
  | fault r => simp [finish] at h
  | refused r => simp [finish] at h

/-- All that a step which answers a next state can have done. -/
theorem stepUnder_next {P : Params} {s t : State} (h : stepUnder P s = .next t) :
    s.run = .running ∧ ∃ lt : s.pc.val < 256, ∃ u,
      exec (currentInstr P s) { s with pc := ⟨s.pc.val + 1, Nat.succ_lt_succ lt⟩ } = .next u ∧
        t = boundaryCheck u := by
  unfold stepUnder at h
  split at h
  · simp at h
  · next run =>
    by_cases lt : s.pc.val < 256
    · rw [fetch_of_lt lt] at h
      exact ⟨run, lt, finish_next h⟩
    · rw [fetch_eq_none lt] at h
      simp at h

/-- Where auto-index leaves the pointer registers. -/
theorem autoIndex_cases (m : AutoIndex) (s : State) :
    (autoIndex m s = s ∧ (m = .keep ∨ m = .unassigned)) ∨
      (autoIndex m s = storePointer (pointer s + 1#8) s ∧ m = .postInc) ∨
      (autoIndex m s = storePointer (pointer s - 1#8) s ∧ m = .postDec) := by
  cases m <;> simp [autoIndex]

/-- Placing a word where the next step fetches keeps Program canonical. -/
theorem withFetchWord_program_wf {s : State} (h : s.program.wf) (nbits w : Nat) :
    (s.withFetchWord nbits w).program.wf := by
  unfold State.withFetchWord
  split
  · split
    · next lt => exact Memory.wf_write h lt _
    · exact h
  · exact h

end Sys2Proof.Machine
end

