-- ==== Sys2Proof/Machine/Listing.lean ====
section
/-! DEFINITION. How an instruction is written in a listing: the spec's own assembler syntax (spec 30_encoding.md R71, D15).
No meaning depends on it. -/

namespace Sys2Proof.Machine

/-- The name of a selected register (R71). -/
def selName : Sel → String
  | .a => "A"
  | .d => "D"
  | .pl => "PL"
  | .ph => "PH"

/-- The suffix of an auto-index mode (R71). -/
def autoIndexSuffix : AutoIndex → String
  | .keep => ""
  | .postInc => ", +"
  | .postDec => ", -"
  | .unassigned => ", ~"

/-- A nibble in decimal (R71). -/
def nibbleName (n : Nibble) : String := toString n.toNat

/-- The flag that an index names: EQ, GT, CY, BW, or #n for 4 and above (R71). -/
def flagIndexName (f : FlagIndex) : String :=
  match (flagIndexCode f).toNat with
  | 0 => "EQ"
  | 1 => "GT"
  | 2 => "CY"
  | 3 => "BW"
  | _ => "#" ++ nibbleName (flagIndexCode f)

/-- The line of a listing; ignored bits are not written (R71). -/
def listing : Instr → String
  | .nop _ => "NOP"
  | .mov rd rs => "MOV " ++ selName rd ++ ", " ++ selName rs
  | .ina imm => "INA " ++ nibbleName imm
  | .sto m rs => "STO " ++ selName rs ++ autoIndexSuffix m
  | .lod rd m => "LOD " ++ selName rd ++ autoIndexSuffix m
  | .add => "ADD"
  | .sub => "SUB"
  | .inc => "INC"
  | .dec => "DEC"
  | .cmp => "CMP"
  | .not => "NOT"
  | .and => "AND"
  | .nand => "NAND"
  | .or => "OR"
  | .nor => "NOR"
  | .xor => "XOR"
  | .xnor => "XNOR"
  | .shl => "SHL"
  | .shr => "SHR"
  | .rol => "ROL"
  | .ror => "ROR"
  | .jit f => "JIT " ++ flagIndexName f
  | .jif f => "JIF " ++ flagIndexName f
  | .push _ => "PUSH"
  | .pop _ => "POP"
  | .tak _ => "TAK"
  | .prn _ => "PRN"
  | .cls _ => "CLS"
  | .hlt _ => "HLT"
  | .trp _ => "TRP"
  | .res _ => "RES"

end Sys2Proof.Machine
end

