-- ==== Sys2Proof/Tests/Slice0.lean ====
section
/-! SUPPORT. Small tests and witnesses. Expected results are the spec's: encodings from 30_encoding.md R59, R64, R67, R71,
vectors from 95_test_vectors.md (their ids stand in the comments). The witnesses show that the hypotheses of a statement in
Certificates/Slice0/Obligations.lean can be met together. -/

namespace Sys2Proof.Tests

open Sys2Proof.Machine Sys2Proof.Claims

/-- One step that runs byte `b` from `s`. -/
def runByte (b : Byte) (s : State) : Host.Outcome State Fault Refusal := step (s.withFetchWord 8 b.toNat)

/-- The outcome is a next state that passes the check. -/
def nextIs (o : Host.Outcome State Fault Refusal) (check : State → Bool) : Bool :=
  match o with
  | .next t => check t
  | .fault _ => false
  | .refused _ => false

/-- A machine with gaps in its OPCODE_MAP, no bijection for ALU_MAP, and BITMASK. -/
def gaps : Params where
  opcodeMap := fun op => if op = 0x2#4 then some .ina else if op = 0x6#4 then some .jit else if op = 0x7#4 then some .jif else none
  aluMap := fun _ => .add
  flagIndexMode := .bitmask

/-! ### Well-formedness: a term each check refuses -/

theorem test_wf_refuses_unmapped_opcode : ¬ Instr.WellFormed gaps (.mov .a .d) := by decide

theorem test_wf_refuses_unmapped_operation :
    ¬ Instr.WellFormed { Config.reference with aluMap := fun _ => .add } .sub := by decide

theorem test_wf_refuses_other_flag_mode : ¬ Instr.WellFormed Config.reference (.jit (.bitmask 3)) := by decide

theorem test_wf_accepts : Instr.WellFormed gaps (.jif (.bitmask 15)) ∧ Instr.WellFormed Config.reference .ror := by decide

theorem test_encode_refuses_ill_formed : encode (.jit (.bitmask 3)) = none := by decide

theorem test_lawful_reference : Config.reference.Lawful := by decide

theorem test_lawful_refuses_repeated_operation : ¬ gaps.Lawful := by decide

theorem test_lawful_refuses_other_ina :
    ¬ Params.Lawful { Config.reference with opcodeMap := fun _ => some .nop } := by decide

/-! ### Decoding: one word per constructor, written out from the encoding -/

theorem test_decode_nop : decode 0b00000000#8 = .nop 0 := by decide

theorem test_decode_mov : decode 0b00011110#8 = .mov .ph .pl := by decide

theorem test_decode_ina : decode 0b00101111#8 = .ina 15 := by decide

theorem test_decode_sto : decode 0b00110110#8 = .sto .postInc .pl := by decide

theorem test_decode_lod : decode 0b01000110#8 = .lod .d .postDec := by decide

theorem test_decode_add : decode 0b01010000#8 = .add := by decide

theorem test_decode_sub : decode 0b01010001#8 = .sub := by decide

theorem test_decode_inc : decode 0b01010010#8 = .inc := by decide

theorem test_decode_dec : decode 0b01010011#8 = .dec := by decide

theorem test_decode_cmp : decode 0b01010100#8 = .cmp := by decide

theorem test_decode_not : decode 0b01010101#8 = .not := by decide

theorem test_decode_and : decode 0b01010110#8 = .and := by decide

theorem test_decode_nand : decode 0b01010111#8 = .nand := by decide

theorem test_decode_or : decode 0b01011000#8 = .or := by decide

theorem test_decode_nor : decode 0b01011001#8 = .nor := by decide

theorem test_decode_xor : decode 0b01011010#8 = .xor := by decide

theorem test_decode_xnor : decode 0b01011011#8 = .xnor := by decide

theorem test_decode_shl : decode 0b01011100#8 = .shl := by decide

theorem test_decode_shr : decode 0b01011101#8 = .shr := by decide

theorem test_decode_rol : decode 0b01011110#8 = .rol := by decide

theorem test_decode_ror : decode 0b01011111#8 = .ror := by decide

theorem test_decode_jit : decode 0b01100011#8 = .jit (.position 3) := by decide

theorem test_decode_jif : decode 0b01111111#8 = .jif (.position 15) := by decide

theorem test_decode_push : decode 0b10001101#8 = .push 13 := by decide

theorem test_decode_pop : decode 0b10011100#8 = .pop 12 := by decide

theorem test_decode_tak : decode 0b10101111#8 = .tak 15 := by decide

theorem test_decode_prn : decode 0b10111110#8 = .prn 14 := by decide

theorem test_decode_cls : decode 0b11001001#8 = .cls 9 := by decide

theorem test_decode_hlt : decode 0b11011000#8 = .hlt 8 := by decide

theorem test_decode_trp : decode 0b11101011#8 = .trp 11 := by decide

theorem test_decode_res : decode 0b11111010#8 = .res 10 := by decide

/-- The same word on a machine with BITMASK, and a word its OPCODE_MAP sends to none (R65, R102). -/
theorem test_decode_gaps : decodeUnder gaps 0b01100011#8 = .jit (.bitmask 3) ∧
    decodeUnder gaps 0b11010111#8 = .nop 7 := by decide

theorem test_decode_bytes : decodeBytes [] = .error .noByte ∧ decodeTableWord 16 0x50 = none ∧
    decodeTableWord 8 0x5A = some .xor := by decide

theorem test_encode : encode (.mov .ph .pl) = some 0x1E#8 ∧ encode (.sto .postDec .pl) = some 0x3A#8 ∧
    encode (.lod .ph .unassigned) = some 0x4F#8 ∧ encode .ror = some 0x5F#8 := by decide

/-- The listings of 95_test_vectors.md 2.1 and 2.3. -/
theorem test_listing : listing (decode 0x3A#8) = "STO PL, -" ∧ listing (decode 0x63#8) = "JIT BW" ∧
    listing (decode 0x7F#8) = "JIF #15" ∧ listing (decode 0x1E#8) = "MOV PH, PL" := by decide

/-! ### Operand forms and flags -/

/-- 95_test_vectors.md 2.2, rows 5, 8 and 9. -/
theorem test_auto_index :
    let s : State := { State.reset with ph := 0x1F#8, pl := 0x23#8 }
    let u : State := { State.reset with ph := 0#8, pl := 0xFA#8 }
    let v : State := { State.reset with ph := 0x10#8, pl := 0#8 }
    pointer s = 0xF3#8 ∧ (autoIndex .postInc s).ph = 0xF#8 ∧ (autoIndex .postInc s).pl = 0x4#8 ∧
    (autoIndex .postDec u).ph = 0xF#8 ∧ (autoIndex .postDec u).pl = 0x9#8 ∧
    (autoIndex .postInc v).ph = 0#8 ∧ (autoIndex .postInc v).pl = 1#8 := by decide

/-- V-SRC-8, and row 7 of 2.2: mode 3 leaves unnormalised registers alone. -/
theorem test_auto_index_wraps :
    (autoIndex .postInc { State.reset with ph := 0xF#8, pl := 0xF#8 }).pl = 0#8 ∧
    (autoIndex .postDec State.reset).ph = 0xF#8 ∧
    (autoIndex .unassigned { State.reset with ph := 0x1F#8, pl := 0x23#8 }).ph = 0x1F#8 := by decide

/-- The table of cond in 95_test_vectors.md 2.5, FLG = 0b0101 and 0b1010, both modes. -/
theorem test_cond :
    [0, 1, 2, 3, 4, 5, 8, 15].map (fun L => cond (.position L) 0b0101#8) =
      [true, false, true, false, false, false, false, false] ∧
    [0, 1, 2, 3, 4, 5, 8, 15].map (fun L => cond (.bitmask L) 0b0101#8) =
      [false, true, false, true, true, true, false, true] ∧
    [0, 1, 2, 3, 4, 5, 8, 15].map (fun L => cond (.position L) 0b1010#8) =
      [false, true, false, true, false, false, false, false] ∧
    [0, 1, 2, 3, 4, 5, 8, 15].map (fun L => cond (.bitmask L) 0b1010#8) =
      [false, false, true, true, false, false, true, true] := by decide

theorem test_memory_canonical :
    Memory.write (Memory.write [(3, 1#8)] 1 7#8) 3 0#8 = [(1, 7#8)] ∧ ¬ Memory.wf [(1, 0#8)] ∧
    ¬ Memory.wf [(2, 1#8), (1, 1#8)] ∧ ¬ Memory.wf [(256, 1#8)] := by decide

/-! ### One step of each instruction -/

/-- T1 -/
theorem test_nop : nextIs (runByte 0x00#8 { State.reset with pc := 5 })
    (fun t => t.pc == 6) = true := by decide

/-- T2, V-SRC-12 -/
theorem test_nop_at_end : nextIs (runByte 0x00#8 { State.reset with pc := 255 })
    (fun t => t.pc == 256 && t.halted) = true := by decide

/-- V-SRC-2 -/
theorem test_ina : nextIs (runByte 0x23#8 { State.reset with a := 0xFA#8 })
    (fun t => t.a == 3#8) = true := by decide

/-- J11 -/
theorem test_ina_at_end : nextIs (runByte 0x29#8 { State.reset with pc := 255 })
    (fun t => t.a == 9#8 && t.pc == 256 && t.halted) = true := by decide

/-- T4 -/
theorem test_mov : nextIs (runByte 0x14#8 { State.reset with a := 0xFA#8 })
    (fun t => t.d == 0xFA#8 && t.a == 0xFA#8) = true := by decide

/-- T6 -/
theorem test_mov_to_pointer : nextIs (runByte 0x1E#8 { State.reset with pl := 5#8 })
    (fun t => t.ph == 5#8 && pointer t == 0x55#8) = true := by decide

/-- T7 -/
theorem test_sto_wraps : nextIs (runByte 0x34#8 { State.reset with ph := 0xF#8, pl := 0xF#8, a := 3#8 })
    (fun t => memRead t 0xFF#8 == 3#8 && t.ph == 0#8 && t.pl == 0#8) = true := by decide

/-- T9 -/
theorem test_sto_mode_three : nextIs (runByte 0x3D#8 { State.reset with pl := 2#8, d := 9#8 })
    (fun t => memRead t 2#8 == 9#8 && t.pl == 2#8 && t.ph == 0#8) = true := by decide

/-- T11 -/
theorem test_lod_into_pl : nextIs (runByte 0x49#8 { State.reset with pl := 3#8, data := [(3, 7#8)] })
    (fun t => t.pl == 8#8 && t.ph == 0#8) = true := by decide

/-- T12 -/
theorem test_lod_into_ph : nextIs (runByte 0x4E#8 { State.reset with data := [(0, 0x12#8)] })
    (fun t => t.ph == 1#8 && t.pl == 0xF#8) = true := by decide

/-- A1, V-SRC-3 -/
theorem test_add : nextIs (runByte 0x50#8 { State.reset with a := 9#8, d := 9#8 })
    (fun t => t.a == 2#8 && t.d == 9#8 && t.flg == 0b0100#8) = true := by decide

/-- A6 -/
theorem test_add_wide : nextIs (runByte 0x50#8 { State.reset with a := 250#8 })
    (fun t => t.a == 10#8 && t.flg == 0b0100#8) = true := by decide

/-- A8, V-SRC-5 -/
theorem test_sub : nextIs (runByte 0x51#8 { State.reset with a := 3#8, d := 5#8 })
    (fun t => t.a == 14#8 && t.flg == 0b1000#8) = true := by decide

/-- A11 -/
theorem test_sub_wide : nextIs (runByte 0x51#8 { State.reset with a := 32#8, d := 1#8 })
    (fun t => t.a == 15#8 && t.flg == 0#8) = true := by decide

/-- A13 -/
theorem test_inc : nextIs (runByte 0x52#8 { State.reset with a := 4#8, d := 9#8 })
    (fun t => t.a == 5#8 && t.flg == 0#8) = true := by decide

/-- A14 -/
theorem test_inc_wraps : nextIs (runByte 0x52#8 { State.reset with a := 15#8 })
    (fun t => t.a == 0#8 && t.flg == 0b0100#8) = true := by decide

/-- A18 -/
theorem test_dec : nextIs (runByte 0x53#8 { State.reset with a := 32#8 })
    (fun t => t.a == 15#8 && t.flg == 0#8) = true := by decide

/-- A17 -/
theorem test_dec_wraps : nextIs (runByte 0x53#8 State.reset)
    (fun t => t.a == 15#8 && t.flg == 0b1000#8) = true := by decide

/-- A22 -/
theorem test_cmp_less : nextIs (runByte 0x54#8 { State.reset with a := 3#8, d := 7#8, flg := 0b0011#8 })
    (fun t => t.a == 3#8 && t.flg == 0b0011#8) = true := by decide

/-- A23 -/
theorem test_cmp_equal : nextIs (runByte 0x54#8 { State.reset with a := 5#8, d := 5#8, flg := 0b0010#8 })
    (fun t => t.a == 5#8 && t.flg == 0b0011#8) = true := by decide

/-- A25 -/
theorem test_not : nextIs (runByte 0x55#8 { State.reset with a := 5#8 })
    (fun t => t.a == 0xFA#8 && t.flg == 0#8) = true := by decide

/-- A29 -/
theorem test_and : nextIs (runByte 0x56#8 { State.reset with a := 0xFA#8, d := 0x0F#8 })
    (fun t => t.a == 0x0A#8) = true := by decide

/-- A30 -/
theorem test_nand : nextIs (runByte 0x57#8 { State.reset with a := 0xC#8, d := 0xA#8 })
    (fun t => t.a == 0xF7#8) = true := by decide

/-- A32 -/
theorem test_or : nextIs (runByte 0x58#8 { State.reset with a := 0xC#8, d := 0xA#8 })
    (fun t => t.a == 0xE#8) = true := by decide

/-- A33 -/
theorem test_nor : nextIs (runByte 0x59#8 { State.reset with a := 0xC#8, d := 0xA#8 })
    (fun t => t.a == 0xF1#8) = true := by decide

/-- A34 -/
theorem test_xor : nextIs (runByte 0x5A#8 { State.reset with a := 0xC#8, d := 0xA#8 })
    (fun t => t.a == 0x6#8) = true := by decide

/-- A36 -/
theorem test_xnor : nextIs (runByte 0x5B#8 { State.reset with a := 0xC#8, d := 0xA#8 })
    (fun t => t.a == 0xF9#8) = true := by decide

/-- A39 -/
theorem test_shl : nextIs (runByte 0x5C#8 { State.reset with a := 0xF#8, d := 2#8 })
    (fun t => t.a == 0x3C#8 && t.flg == 0#8) = true := by decide

/-- A43 -/
theorem test_shl_eight : nextIs (runByte 0x5C#8 { State.reset with a := 1#8, d := 8#8 })
    (fun t => t.a == 0#8) = true := by decide

/-- A46 -/
theorem test_shr : nextIs (runByte 0x5D#8 { State.reset with a := 0xF0#8, d := 4#8 })
    (fun t => t.a == 0xF#8) = true := by decide

/-- A49 -/
theorem test_shr_eight : nextIs (runByte 0x5D#8 { State.reset with a := 0xFF#8, d := 8#8 })
    (fun t => t.a == 0#8) = true := by decide

/-- A53 -/
theorem test_rol : nextIs (runByte 0x5E#8 { State.reset with a := 6#8, d := 2#8 })
    (fun t => t.a == 0x19#8) = true := by decide

/-- A56: at an undefined count the step completes and only A is left open. -/
theorem test_rol_undefined : nextIs (runByte 0x5E#8 { State.reset with a := 5#8, flg := 0b0100#8 })
    (fun t => t.pc == 1 && t.flg == 0b0100#8 && t.d == 0#8 && t.ph == 0#8 && t.pl == 0#8 && t.data == []) = true := by
  decide

/-- A59 -/
theorem test_ror : nextIs (runByte 0x5F#8 { State.reset with a := 9#8, d := 1#8 })
    (fun t => t.a == 0x4C#8) = true := by decide

/-- A64 -/
theorem test_ror_undefined : nextIs (runByte 0x5F#8 { State.reset with a := 5#8, d := 200#8 })
    (fun t => t.pc == 1 && t.flg == 0#8 && t.d == 200#8 && t.ph == 0#8 && t.pl == 0#8 && t.data == []) = true := by
  decide

/-- J7 -/
theorem test_jit_taken : nextIs (runByte 0x61#8 { State.reset with pc := 255, flg := 0b0010#8 })
    (fun t => t.pc == 0 && !t.halted) = true := by decide

/-- J5 -/
theorem test_jit_high_index : nextIs (runByte 0x64#8 { State.reset with pc := 10, flg := 0b1111#8, ph := 2#8 })
    (fun t => t.pc == 11) = true := by decide

/-- J4 -/
theorem test_jif_not_taken : nextIs (runByte 0x70#8 { State.reset with pc := 10, flg := 0b0001#8, pl := 5#8 })
    (fun t => t.pc == 11) = true := by decide

/-- J6 -/
theorem test_jif_high_index : nextIs (runByte 0x74#8 { State.reset with pc := 10, flg := 0b1111#8, ph := 2#8 })
    (fun t => t.pc == 0x20) = true := by decide

/-- 2.6 -/
theorem test_push : nextIs (runByte 0x80#8 { State.reset with pc := 3, a := 7#8, sp := 9#8, data := [(1, 2#8)] })
    (fun t => t.pc == 4 && !t.halted && t.a == 7#8 && t.sp == 9#8 && t.data == [(1, 2#8)]) = true := by decide

/-- 2.6 -/
theorem test_pop : nextIs (runByte 0x93#8 { State.reset with pc := 3, a := 7#8, sp := 9#8, data := [(1, 2#8)] })
    (fun t => t.pc == 4 && !t.halted && t.a == 7#8 && t.sp == 9#8 && t.data == [(1, 2#8)]) = true := by decide

/-- 2.6 -/
theorem test_tak : nextIs (runByte 0xA0#8 { State.reset with pc := 3, a := 7#8, sp := 9#8, data := [(1, 2#8)] })
    (fun t => t.pc == 4 && !t.halted && t.a == 7#8 && t.sp == 9#8 && t.data == [(1, 2#8)]) = true := by decide

/-- 2.6 -/
theorem test_prn : nextIs (runByte 0xB0#8 { State.reset with pc := 3, a := 7#8, sp := 9#8, data := [(1, 2#8)] })
    (fun t => t.pc == 4 && !t.halted && t.a == 7#8 && t.sp == 9#8 && t.data == [(1, 2#8)]) = true := by decide

/-- 2.6 -/
theorem test_cls : nextIs (runByte 0xC0#8 { State.reset with pc := 3, a := 7#8, sp := 9#8, data := [(1, 2#8)] })
    (fun t => t.pc == 4 && !t.halted && t.a == 7#8 && t.sp == 9#8 && t.data == [(1, 2#8)]) = true := by decide

/-- 2.6 -/
theorem test_trp : nextIs (runByte 0xEF#8 { State.reset with pc := 3, a := 7#8, sp := 9#8, data := [(1, 2#8)] })
    (fun t => t.pc == 4 && !t.halted && t.a == 7#8 && t.sp == 9#8 && t.data == [(1, 2#8)]) = true := by decide

/-- 2.6 -/
theorem test_res : nextIs (runByte 0xFF#8 { State.reset with pc := 3, a := 7#8, sp := 9#8, data := [(1, 2#8)] })
    (fun t => t.pc == 4 && !t.halted && t.a == 7#8 && t.sp == 9#8 && t.data == [(1, 2#8)]) = true := by decide

/-- J10 -/
theorem test_hlt : nextIs (runByte 0xD3#8 { State.reset with pc := 2 })
    (fun t => t.pc == 3 && t.halted) = true := by decide

/-- J9 -/
theorem test_hlt_at_end : nextIs (runByte 0xD0#8 { State.reset with pc := 255 })
    (fun t => t.pc == 256 && t.halted) = true := by decide

/-- V-SRC-10: no step after HLT. -/
theorem test_halted_has_no_step : step { State.reset with run := .halted } = .fault .halted := rfl

/-- P5 begins so: from reset with nothing placed, the first step is a NOP. -/
theorem test_first_step_from_reset : nextIs (step State.reset) (fun t => t == { State.reset with pc := 1 }) = true := by
  decide

/-! ### Witnesses -/

theorem reference_injective (m n : Nibble) (o : Opcode) (hm : Config.reference.opcodeMap m = some o)
    (hn : Config.reference.opcodeMap n = some o) : m = n := by
  have all : ∀ m n : Nibble, Config.refOpcodeMap m = Config.refOpcodeMap n → m = n := by decide
  exact all m n (hm.trans hn.symm)

theorem witness_DecodeInvertsEncode : Instr.WellFormed Config.reference (.sto .unassigned .ph) := by decide

theorem witness_EncodeInvertsDecode : Config.reference.Lawful ∧
    (∀ m n o, Config.reference.opcodeMap m = some o → Config.reference.opcodeMap n = some o → m = n) ∧
    HasOpcode Config.reference 0xFF#8 .res :=
  ⟨by decide, reference_injective, by unfold HasOpcode; decide⟩

/-- Selector values 0 and 3 are two of the four, so a write through one meets the clause about another. -/
theorem witness_SelectorReachesFourRegisters : (0 : Pair) ≠ 3 := by decide

/-- A state with one byte of Program at PC. -/
def withByte (pc : Fin 257) (b : Byte) : State := { State.reset with pc := pc, program := [(pc.val, b)] }

theorem witness_NopOnlyAdvancesPc : State.reset.pc.val < 256 ∧ State.reset.run = .running ∧
    HasOpcode Config.reference (currentByte State.reset) .nop ∧
    HasOpcode Config.reference (currentByte (withByte 255 0x0F#8)) .nop := by
  unfold HasOpcode; decide

theorem witness_InaLoadsLowNibble : Config.reference.Lawful := by decide

theorem witness_MovCopiesRegister : HasOpcode Config.reference 0x1F#8 .mov := by unfold HasOpcode; decide

theorem witness_StoStoresAtPointer : HasOpcode Config.reference 0x3F#8 .sto ∧ (1#8 : Addr) ≠ pointer State.reset := by
  unfold HasOpcode; decide

theorem witness_LodLoadsFromPointer : HasOpcode Config.reference 0x40#8 .lod := by unfold HasOpcode; decide

theorem witness_StoreThenLoadReturnsValue :
    (AutoIndex.keep = .keep ∨ AutoIndex.keep = .unassigned) ∧
    (AutoIndex.unassigned = .keep ∨ AutoIndex.unassigned = .unassigned) := by decide

theorem witness_PointerFormula :
    let s : State := { State.reset with ph := 15#8, pl := 15#8 }
    s.ph.toNat < 16 ∧ s.pl.toNat < 16 := by decide

theorem witness_AutoIndexByMode : AutoIndex.unassigned = .keep ∨ AutoIndex.unassigned = .unassigned := by decide

/-- The hypotheses of `SelectedBy`, for the first and the last operation and for each between. -/
theorem witness_SelectedBy : nibbles.map (fun L => (Config.reference.opcodeMap (opcodeField (0x5#4 ++ L)),
      Config.reference.aluMap (lowField (0x5#4 ++ L)))) = AluOp.all.map (fun op => (some Opcode.alu, op)) := by decide

/-- The boundary count of ShlShiftsByWholeCount and ShrShiftsByWholeCount. -/
theorem witness_ShlShrShiftByWholeCount : 8 ≤ (State.d { State.reset with d := 8#8 }).toNat := by decide

/-- The counts where the two branches of RolRotatesOrDraws and RorRotatesOrDraws meet. -/
theorem witness_RolRorRotateOrDraw :
    [0#8, 1#8, 3#8, 4#8].map (fun c => decide (1 ≤ (State.d { State.reset with d := c }).toNat ∧
      (State.d { State.reset with d := c }).toNat ≤ 3)) = [false, true, true, false] := by decide

/-- For an operation that ignores D a state with another D, for a rotate one with the same D and count of draws. -/
theorem witness_AluReadsAndWritesAccumulator :
    HasOpcode Config.reference 0x5F#8 .alu ∧
    (let u : State := { State.reset with d := 7#8, draws := 5 }
     AluOp.not ∉ [AluOp.rol, .ror] ∧ u.a = State.reset.a ∧ u.flg = State.reset.flg ∧
      (AluOp.not ∉ [AluOp.inc, .dec, .not] → u.d = State.reset.d)) ∧
    (let u : State := { State.reset with pc := 9, draws := 5 }
     AluOp.cmp ∉ [AluOp.rol, .ror] ∧ u.a = State.reset.a ∧ u.flg = State.reset.flg ∧
      (AluOp.cmp ∉ [AluOp.inc, .dec, .not] → u.d = State.reset.d)) ∧
    let u : State := { State.reset with pc := 9, flg := 4#8, data := [(0, 1#8)] }
    AluOp.ror ∈ [AluOp.rol, .ror] ∧ u.a = State.reset.a ∧ u.d = State.reset.d ∧ u.draws = State.reset.draws := by
  unfold HasOpcode; decide

theorem witness_OnlyArithmeticMasks :
    (AluOp.dec ∈ [AluOp.add, .sub, .inc, .dec] ∧ ∃ t, exec AluOp.dec.instr State.reset = .next t) ∧
    AluOp.xnor ∈ [AluOp.not, .nand, .nor, .xnor] ∧
    ∃ t, exec AluOp.xnor.instr { State.reset with a := 15#8, d := 15#8 } = .next t ∧ (15#8 : Byte).toNat < 16 :=
  ⟨⟨by decide, _, rfl⟩, by decide, _, rfl, by decide⟩

theorem witness_SetFlagSetsOneBit :
    (∃ t, exec .add State.reset = .next t) ∧
    (setFlag .borrow State.reset).flg.getLsbD 3 = true ∧ (setFlag .equal State.reset).flg.getLsbD 0 = true :=
  ⟨⟨_, rfl⟩, by decide, by decide⟩

theorem witness_InstructionsOnlySetTheirFlags :
    (∃ t, exec .cmp State.reset = .next t) ∧ ∀ f, Instr.cmp ≠ .jit f ∧ Instr.cmp ≠ .jif f :=
  ⟨⟨_, rfl⟩, fun _ => ⟨nofun, nofun⟩⟩

theorem witness_FlagsOnlyGrowAlongRuns :
    (∃ t, runUnder Config.reference 2 { State.reset with flg := 8#8 } = .next t) ∧ (8#8 : Byte).getLsbD 3 = true :=
  ⟨⟨_, rfl⟩, by decide⟩

theorem witness_JitJumpsIfFlagSet :
    HasOpcode Config.reference 0x6F#8 .jit ∧ Config.reference.flagIndexMode = .position ∧
    HasOpcode gaps 0x60#8 .jit ∧ gaps.flagIndexMode = .bitmask := by unfold HasOpcode; decide

theorem witness_JifJumpsIfFlagClear :
    HasOpcode Config.reference 0x7F#8 .jif ∧ Config.reference.flagIndexMode = .position ∧
    HasOpcode gaps 0x70#8 .jif ∧ gaps.flagIndexMode = .bitmask := by unfold HasOpcode; decide

theorem witness_HighFlagIndexNeverSet :
    State.Inv { State.reset with flg := 15#8 } ∧ 4 ≤ (4 : Nibble).toNat ∧ 4 ≤ (15 : Nibble).toNat := by decide

theorem witness_HltHaltsForGood :
    (withByte 255 0xDF#8).pc.val < 256 ∧ (withByte 255 0xDF#8).run = .running ∧
    HasOpcode Config.reference (currentByte (withByte 255 0xDF#8)) .hlt := by unfold HasOpcode; decide

theorem witness_ReservedOpcodesAreNoOps :
    (withByte 255 0x80#8).pc.val < 256 ∧ (withByte 255 0x80#8).run = .running ∧
    [(Opcode.push, 0x80#8), (.pop, 0x90#8), (.tak, 0xA0#8), (.prn, 0xB0#8), (.cls, 0xC0#8), (.trp, 0xE0#8),
      (.res, 0xFF#8)].all (fun x => Config.reference.opcodeMap (opcodeField (currentByte (withByte 255 x.2))) = some x.1)
      = true := by decide

theorem witness_UnmappedOpcodeIsNop :
    State.reset.pc.val < 256 ∧ State.reset.run = .running ∧
    gaps.opcodeMap (opcodeField (currentByte State.reset)) = none := by decide

theorem witness_StepRunsDecodedInstruction :
    (withByte 255 0x52#8).pc.val < 256 ∧ (withByte 255 0x52#8).run = .running ∧
    decode (currentByte (withByte 255 0x52#8)) = .inc ∧
    (∃ t, exec .inc (fetched (withByte 255 0x52#8) (by decide)) = .next t) ∧
    State.run { State.reset with run := .halted } = .halted :=
  ⟨by decide, by decide, by decide, ⟨_, rfl⟩, rfl⟩

theorem witness_NoInstructionFaults : (withByte 255 0xE0#8).run = .running ∧ (withByte 255 0xE0#8).pc.val < 256 := by
  decide

theorem witness_HaltedHasNoStep : State.run { State.reset with pc := 256, run := .halted } = .halted := rfl

/-- Both ways to halt: HLT, and a no-op at 255. -/
theorem witness_OnlyHltAndBoundaryHalt :
    (∃ t, stepUnder Config.reference (withByte 7 0xD0#8) = .next t ∧ t.run = .halted ∧ t.pc.val = 8) ∧
    ∃ t, stepUnder Config.reference (withByte 255 0x00#8) = .next t ∧ t.run = .halted ∧ t.pc.val = 256 :=
  ⟨⟨_, rfl, rfl, rfl⟩, _, rfl, rfl, rfl⟩

theorem witness_SpIsNeverUsed : ∃ t, stepUnder Config.reference (withByte 7 0x80#8) = .next t := ⟨_, rfl⟩

/-- A jump that is taken, and one that is not, each at address 255. -/
theorem witness_PcAdvancesOrJumps :
    (∃ t, stepUnder Config.reference (withByte 255 0x70#8) = .next t) ∧
    TakesJump (currentInstr Config.reference (withByte 255 0x70#8)) (withByte 255 0x70#8).flg ∧
    (∃ t, stepUnder Config.reference (withByte 255 0x60#8) = .next t) ∧
    ¬ TakesJump (currentInstr Config.reference (withByte 255 0x60#8)) (withByte 255 0x60#8).flg := by
  refine ⟨⟨_, rfl⟩, .inr ⟨.position 0, by decide, by decide⟩, ⟨_, rfl⟩, ?_⟩
  have e : currentInstr Config.reference (withByte 255 0x60#8) = .jit (.position 0) := by decide
  rw [e]
  rintro (⟨f, hf, hc⟩ | ⟨f, hf, _⟩)
  · cases hf; revert hc; decide
  · cases hf

/-- PC 255 with a jump not taken, and with one taken: both sides of the boundary. -/
theorem witness_BoundaryCheckHaltsAt256 : (withByte 255 0x70#8).pc.val = 255 ∧ (withByte 255 0x60#8).pc.val = 255 := by
  decide

theorem witness_ProgramIsOnlyFetched :
    (∃ t, exec (.lod .pl .postDec) State.reset = .next t) ∧
    ∃ t, stepUnder Config.reference (withByte 0 0x4A#8) = .next t := ⟨⟨_, rfl⟩, _, rfl⟩

theorem witness_DataOnlyByStoAndLod :
    ((∃ t, exec .nand State.reset = .next t) ∧ (∀ m r, Instr.nand ≠ .sto m r) ∧ ∀ r m, Instr.nand ≠ .lod r m) ∧
    ((∃ t, exec (.lod .a .keep) State.reset = .next t) ∧ ∀ m r, Instr.lod .a .keep ≠ .sto m r) ∧
    ∃ t, exec (.sto .postInc .pl) State.reset = .next t :=
  ⟨⟨⟨_, rfl⟩, nofun, nofun⟩, ⟨⟨_, rfl⟩, nofun⟩, _, rfl⟩

theorem witness_StepKeepsInvariant :
    (withByte 255 0x34#8).Inv ∧ ∃ t, step (withByte 255 0x34#8) = .next t := ⟨by decide, _, rfl⟩

theorem witness_LaunchHoldsImage :
    256 < (List.replicate 257 0#8).length ∧ (List.replicate 256 0#8).length ≤ 256 := by
  simp only [List.length_replicate]; decide

/-- Every instruction of the run from this state is HLT, so no jump is taken. -/
theorem witness_RunWithoutJumpsHalts :
    (withByte 0 0xD0#8).run = .running ∧ (withByte 0 0xD0#8).pc.val < 256 ∧
    ∀ n t, runUnder Config.reference n (withByte 0 0xD0#8) = .next t → t.run = .running →
      ¬ TakesJump (currentInstr Config.reference t) t.flg := by
  refine ⟨by decide, by decide, fun n t h r => ?_⟩
  match n with
  | 0 =>
    cases h
    have e : currentInstr Config.reference (withByte 0 0xD0#8) = .hlt 0 := by decide
    rw [e]
    rintro (⟨f, hf, _⟩ | ⟨f, hf, _⟩) <;> cases hf
  | 1 => cases h; cases r
  | n + 2 => cases h

theorem witness_HaltCauseIsNotRecorded : Fin.val (State.pc { State.reset with pc := 256 }) = 256 := rfl

theorem witness_EqualReadsEqualMemory :
    Memory.wf [(0, 1#8), (255, 2#8)] ∧ Memory.wf (Memory.write [(255, 2#8)] 0 1#8) ∧
    ∀ x, x < 256 → Memory.read [(0, 1#8), (255, 2#8)] x = Memory.read (Memory.write [(255, 2#8)] 0 1#8) x :=
  ⟨by decide, by decide, fun _ _ => rfl⟩

theorem witness_AdvancePermitsOneStep :
    State.halted { State.reset with run := .halted } = true ∧ State.halted State.reset = false := by decide

end Sys2Proof.Tests
end

section
/-! PROOFS. What the instructions and a step do to PC, run and FLG, each said once, and the statements of the family
10_state.md (R13, R19, R24, R25, R27, R30, R31, R33) assembled from them. -/

namespace Sys2Proof.Machine

open Sys2Proof.Claims

/-! ### Register selectors -/

/-- `sel(e)` follows the table of R13. -/
theorem selectorIs_selOf (e : Pair) : SelectorIs e.toNat (selOf e) := by
  unfold SelectorIs
  revert e
  decide

theorem selOf_injective : Function.Injective selOf := Function.LeftInverse.injective selCode_selOf

/-- Writing a selected register changes no register that cannot be selected, and no memory. -/
theorem writeReg_frame (r : Sel) (v : Byte) (s : State) :
    writeReg r v s = { s with
      a := (writeReg r v s).a, d := (writeReg r v s).d, pl := (writeReg r v s).pl, ph := (writeReg r v s).ph } := by
  cases r <;> rfl

/-! ### FLG -/

/-- `setFlag(f)` sets bit `pos(f)` of FLG and no other (R19). -/
theorem getLsbD_setFlag_flg (f : Flag) (s : State) (k : Nat) :
    (setFlag f s).flg.getLsbD k = (s.flg.getLsbD k || decide (k = flagPos f)) := by
  have pos_lt : flagPos f < 8 := by cases f <;> decide
  simp [← BitVec.twoPow_eq, BitVec.getLsbD_twoPow, pos_lt, eq_comm]

/-- Setting a flag that is set changes nothing (R19). -/
theorem setFlag_of_getLsbD {f : Flag} {s : State} (h : s.flg.getLsbD (flagPos f) = true) : setFlag f s = s := by
  have same : (setFlag f s).flg = s.flg := BitVec.eq_of_getLsbD_eq fun k _ => by
    rw [getLsbD_setFlag_flg]
    by_cases e : k = flagPos f <;> simp [e, h]
  calc setFlag f s = { s with flg := (setFlag f s).flg } := rfl
    _ = s := by rw [same]

/-- From value `v` of FLG to value `w`, no flag is cleared and none outside `mask` is set. -/
def OnlySets (mask v w : Byte) : Prop := v &&& w = v ∧ w &&& ~~~mask = v &&& ~~~mask

theorem OnlySets.refl (mask v : Byte) : OnlySets mask v v := ⟨BitVec.and_self, rfl⟩

theorem OnlySets.trans {mask u v w : Byte} (huv : OnlySets mask u v) (hvw : OnlySets mask v w) :
    OnlySets mask u w := by
  obtain ⟨kept, within⟩ := huv
  obtain ⟨kept', within'⟩ := hvw
  refine ⟨?_, within'.trans within⟩
  calc u &&& w = u &&& v &&& w := by rw [kept]
    _ = u := by rw [BitVec.and_assoc, kept', kept]

theorem OnlySets.getLsbD {mask v w : Byte} (h : OnlySets mask v w) {k : Nat} (hk : v.getLsbD k = true) :
    w.getLsbD k = true := by
  obtain ⟨kept, -⟩ := h
  rw [← kept, BitVec.getLsbD_and] at hk
  exact (Bool.and_eq_true_iff.mp hk).2

theorem onlySets_setFlag {mask : Byte} {f : Flag} (hf : mask.getLsbD (flagPos f) = true) (s : State) :
    OnlySets mask s.flg (setFlag f s).flg := by
  constructor <;> refine BitVec.eq_of_getLsbD_eq fun k hk => ?_
  · simp only [BitVec.getLsbD_and, getLsbD_setFlag_flg]
    cases s.flg.getLsbD k <;> rfl
  · simp only [BitVec.getLsbD_and, BitVec.getLsbD_not, getLsbD_setFlag_flg]
    by_cases e : k = flagPos f <;> simp [e, hf]

theorem onlySets_setFlagIf {mask : Byte} {f : Flag} (hf : mask.getLsbD (flagPos f) = true) (c : Bool) (s : State) :
    OnlySets mask s.flg (setFlagIf c f s).flg := by
  cases c with
  | false => exact .refl _ _
  | true => exact onlySets_setFlag hf s

/-! ### What an instruction does to PC, run and FLG -/

/-- ROL and ROR leave a state that differs in A, and at an undefined count in the number of draws (R96, R97). -/
theorem rotate_next {defined : Bool} {v : Byte} {s t : State}
    (h : (if defined then unmaskedResult v s else undefinedResult s) = .next t) :
    ∃ w, t = writeReg .a w s ∨ t = writeReg .a w (draw s).2 := by
  cases defined with
  | true => cases h; exact ⟨v, .inl rfl⟩
  | false => cases h; exact ⟨(draw s).1, .inr rfl⟩

/-- An instruction does one of three things to PC and run: HLT halts, a taken jump loads PC with the pointer, and any
other keeps both (R23, R24). -/
theorem exec_control {i : Instr} {s t : State} (h : exec i s = .next t) :
    ((∃ x, i = .hlt x) ∧ ¬ TakesJump i s.flg ∧ t = halt s) ∨
    ((∀ x, i ≠ .hlt x) ∧ TakesJump i s.flg ∧ t = jumpTo (pointer s) s) ∨
    ((∀ x, i ≠ .hlt x) ∧ ¬ TakesJump i s.flg ∧ t.pc = s.pc ∧ t.run = s.run) := by
  cases i with
  | hlt x => cases h; simp
  | jit f | jif f => cases h; cases taken : cond f s.flg <;> simp [TakesJump, taken]
  | rol | ror => obtain ⟨v, rfl | rfl⟩ := rotate_next h <;> simp
  | _ => cases h; simp

/-- An instruction can only set flags in FLG, and only those that R20 gives it. -/
theorem exec_flg {i : Instr} {s t : State} (h : exec i s = .next t) : OnlySets (settable i) s.flg t.flg := by
  cases i with
  | add | inc => cases h; exact onlySets_setFlagIf (f := .carry) (by decide) _ s
  | sub | dec => cases h; exact onlySets_setFlagIf (f := .borrow) (by decide) _ s
  | cmp =>
    cases h
    exact (onlySets_setFlagIf (f := .greater) (by decide) _ s).trans
      (onlySets_setFlagIf (f := .equal) (by decide) _ _)
  | jit f | jif f => cases h; split <;> exact .refl _ _
  | rol | ror => obtain ⟨v, rfl | rfl⟩ := rotate_next h <;> exact .refl _ _
  | _ => cases h; simp [OnlySets.refl]

/-! ### What a step does to PC and run -/

/-- While Running with PC an address of Program, a step is the fetch, the decoded instruction and the boundary check
(R25). -/
theorem stepUnder_of_running (P : Params) {s : State} (run : s.run = .running) (h : s.pc.val < 256) :
    stepUnder P s = finish (exec (currentInstr P s) (fetched s h)) := by
  rw [stepUnder, run, fetch_of_lt h]
  rfl

/-- A step starts Running at an address of Program and ends in one of three ways: HLT halts, a taken jump loads PC with
the pointer and keeps running, and any other instruction advances PC and halts at the boundary only (R24, R26, R27). -/
theorem stepUnder_control {P : Params} {s t : State} (h : stepUnder P s = .next t) :
    s.run = .running ∧ s.pc.val < 256 ∧
    (((∃ x, currentInstr P s = .hlt x) ∧ ¬ TakesJump (currentInstr P s) s.flg ∧
        t.pc.val = s.pc.val + 1 ∧ t.run = .halted) ∨
      ((∀ x, currentInstr P s ≠ .hlt x) ∧ TakesJump (currentInstr P s) s.flg ∧
        t.pc.val = (pointer s).toNat ∧ t.run = .running) ∨
      ((∀ x, currentInstr P s ≠ .hlt x) ∧ ¬ TakesJump (currentInstr P s) s.flg ∧
        t.pc.val = s.pc.val + 1 ∧ t.run = if s.pc.val = 255 then .halted else .running)) := by
  obtain ⟨run, lt, u, hu, rfl⟩ := stepUnder_next h
  refine ⟨run, lt, ?_⟩
  obtain ⟨hlt, no, rfl⟩ | ⟨noHlt, jump, rfl⟩ | ⟨noHlt, no, pc, run'⟩ := exec_control hu
  · exact .inl ⟨hlt, no, by simp, by simp⟩
  · rw [boundaryCheck_of_le (Nat.le_of_lt_succ (pointer s).isLt)]
    exact .inr (.inl ⟨noHlt, jump, rfl, run⟩)
  · have edge : 255 < s.pc.val + 1 ↔ s.pc.val = 255 := by omega
    exact .inr (.inr ⟨noHlt, no, by simp [pc], by simp [pc, run', run, edge]⟩)

end Sys2Proof.Machine

open Sys2Proof Sys2Proof.Machine Sys2Proof.Claims

/-- Settles O41: only two of the three ways a step can end are Halted, HLT and PC = 256. -/
theorem onlyHltAndBoundaryHalt : Obligations.OnlyHltAndBoundaryHalt := by
  refine ⟨rfl, fun P s t h => ?_⟩
  obtain ⟨run, lt, ⟨hlt, -, -, run'⟩ | ⟨noHlt, -, pc, run'⟩ | ⟨noHlt, -, pc, run'⟩⟩ := stepUnder_control h
  · exact ⟨run, by simp [run', hlt]⟩
  · have inside : t.pc.val ≠ 256 := by have := (pointer s).isLt; omega
    exact ⟨run, by simp [run', noHlt, inside]⟩
  · exact ⟨run, by simp [run', noHlt, pc]⟩

/-- Settles O43: of the three ways a step can end, the two that write no PC leave it at 256 exactly from 255, and a
pointer is below 256. -/
theorem boundaryCheckHaltsAt256 : Obligations.BoundaryCheckHaltsAt256 := by
  intro P s t h
  have pointer_lt := (pointer s).isLt
  obtain ⟨-, lt, ⟨-, no, pc, run⟩ | ⟨-, jump, pc, run⟩ | ⟨-, no, pc, run⟩⟩ := stepUnder_control h
  · refine ⟨⟨fun _ => ⟨by omega, no⟩, fun _ => by omega⟩, fun _ => ⟨by omega, run⟩, fun _ jump => absurd jump no⟩
  · refine ⟨⟨fun _ => by omega, fun ⟨_, no⟩ => absurd jump no⟩, fun _ => by omega, fun _ _ => ⟨by omega, run⟩⟩
  · refine ⟨⟨fun _ => ⟨by omega, no⟩, fun _ => by omega⟩, fun _ => ⟨by omega, ?_⟩, fun _ jump => absurd jump no⟩
    rw [run, if_pos (by omega)]

/-- Settles O5: the table of R13, and what a write through a selector leaves in each register. -/
theorem selectorReachesFourRegisters : Obligations.SelectorReachesFourRegisters := by
  refine ⟨selectorIs_selOf, fun s v => ⟨rfl, rfl, rfl, rfl, fun e => ⟨?_, fun q ne => ?_, writeReg_frame _ v s⟩⟩⟩
  · simp
  · simp [selOf_injective.ne ne]

/-- Settles O29: the bits of `setFlag`, and that every instruction only sets flags. -/
theorem setFlagSetsOneBit : Obligations.SetFlagSetsOneBit :=
  ⟨fun _ _ _ h _ hk => (exec_flg h).getLsbD hk, fun f s => ⟨getLsbD_setFlag_flg f s, setFlag_of_getLsbD, rfl⟩⟩

/-- Settles O38: what a step is while Running, and that a step that answers a next state started Running. -/
theorem stepRunsDecodedInstruction : Obligations.StepRunsDecodedInstruction := by
  have runs : ∀ (P : Params) (s : State) (h : s.pc.val < 256) (i : Instr) (t : State), s.run = .running →
      decodeUnder P (currentByte s) = i → exec i (fetched s h) = .next t →
      stepUnder P s = .next (if 255 < t.pc.val then { t with run := .halted } else t) := by
    rintro P s h _ t run rfl ht
    rw [stepUnder_of_running P run h, currentInstr, ht]
    rfl
  refine ⟨runs, runs Config.reference, fun P s halted t h => ?_⟩
  obtain ⟨running, -⟩ := stepUnder_next h
  simp [halted] at running

/-- Settles O49: launch is reset with an image in Program, which no register and no byte of Data shows. -/
theorem resetValues : Obligations.ResetValues := by
  rintro image s (rfl | rfl)
  · exact ⟨rfl, rfl, rfl, rfl, rfl, rfl, rfl, rfl, fun _ => rfl⟩
  · exact ⟨rfl, rfl, rfl, rfl, rfl, rfl, rfl, rfl, fun _ => rfl⟩
end

section
/-! PROOFS. The pointer unit in numbers: the formula of the pointer, the nibbles that `storePointer` leaves and the
table of auto-index, each said once, and the statements of the family 20_memory.md (R42, R43, R44) assembled from
them. -/

namespace Sys2Proof.Machine

open Sys2Proof.Claims

/-! ### The pointer -/

/-- `pointer()` over the naturals, whatever the two cells hold (R42). -/
theorem toNat_pointer (s : State) : (pointer s).toNat = ((s.ph.toNat <<< 4) ||| s.pl.toNat) % 256 := by
  calc (pointer s).toNat = (s.ph.toNat <<< 4) % 2 ^ 8 ||| s.pl.toNat := by simp [pointer]
    _ = (s.ph.toNat <<< 4) % 2 ^ 8 ||| s.pl.toNat % 2 ^ 8 := by rw [Nat.mod_eq_of_lt s.pl.isLt]
    _ = ((s.ph.toNat <<< 4) ||| s.pl.toNat) % 256 := Nat.or_mod_two_pow.symm

/-- `pointer()` is PH:PL when both are nibbles: shifted by four, PH overlaps no bit of PL, and nothing falls off the
top (R42). -/
theorem toNat_pointer_of_nibbles {s : State} (hph : s.ph.toNat < 16) (hpl : s.pl.toNat < 16) :
    (pointer s).toNat = 16 * s.ph.toNat + s.pl.toNat := by
  rw [toNat_pointer, ← Nat.shiftLeft_add_eq_or_of_lt (i := 4) hpl, Nat.shiftLeft_eq]
  omega

/-! ### `storePointer` in numbers -/

theorem toNat_storePointer_ph (a : Addr) (s : State) : (storePointer a s).ph.toNat = a.toNat / 16 := by
  simp [Nat.shiftRight_eq_div_pow]

theorem toNat_storePointer_pl (a : Addr) (s : State) : (storePointer a s).pl.toNat = a.toNat % 16 := by
  simpa using Nat.and_two_pow_sub_one_eq_mod a.toNat 4

/-- `storePointer(a)` makes the pointer `a`, whatever PH and PL held (R43). -/
@[simp] theorem pointer_storePointer (a : Addr) (s : State) : pointer (storePointer a s) = a := by
  have hph := toNat_storePointer_ph a s
  have hpl := toNat_storePointer_pl a s
  have a_lt := a.isLt
  apply BitVec.eq_of_toNat_eq
  rw [toNat_pointer_of_nibbles (by omega) (by omega), hph, hpl]
  omega

/-! ### Auto-index -/

/-- The field value of a mode follows the table of R44. -/
theorem modeIs_autoIndexOf (m : Pair) : ModeIs m.toNat (autoIndexOf m) := by
  unfold ModeIs
  revert m
  decide

/-- Auto-index writes no register but PH and PL, and no memory. -/
theorem autoIndex_frame (m : AutoIndex) (s : State) :
    autoIndex m s = { s with ph := (autoIndex m s).ph, pl := (autoIndex m s).pl } := by
  cases m <;> rfl

theorem autoIndex_of_no_change {m : AutoIndex} (h : m = .keep ∨ m = .unassigned) (s : State) : autoIndex m s = s := by
  obtain rfl | rfl := h <;> rfl

@[simp] theorem pointer_autoIndex_postInc (s : State) : pointer (autoIndex .postInc s) = pointer s + 1#8 :=
  pointer_storePointer _ s

@[simp] theorem pointer_autoIndex_postDec (s : State) : pointer (autoIndex .postDec s) = pointer s - 1#8 :=
  pointer_storePointer _ s

/-- A step down from `p` in numbers: 255 up, modulo 256. -/
theorem toNat_sub_one (p : Addr) : (p - 1#8).toNat = (p.toNat + 255) % 256 := by
  rw [BitVec.toNat_sub, Nat.add_comm]
  rfl

/-- PH and PL after auto-index are those of the table of R44. -/
theorem indexedFrom_autoIndex (m : AutoIndex) (s : State) :
    IndexedFrom (pointer s) s.ph s.pl m (autoIndex m s) := by
  cases m with
  | keep | unassigned => exact ⟨rfl, rfl⟩
  | postInc =>
    have hph := toNat_storePointer_ph (pointer s + 1#8) s
    have hpl := toNat_storePointer_pl (pointer s + 1#8) s
    have up : (pointer s + 1#8).toNat = ((pointer s).toNat + 1) % 256 := BitVec.toNat_add ..
    exact ⟨hph.trans (by rw [up]), hpl.trans (by omega)⟩
  | postDec =>
    have hph := toNat_storePointer_ph (pointer s - 1#8) s
    have hpl := toNat_storePointer_pl (pointer s - 1#8) s
    have down := toNat_sub_one (pointer s)
    exact ⟨hph.trans (by rw [down]), hpl.trans (by omega)⟩

end Sys2Proof.Machine

open Sys2Proof Sys2Proof.Machine Sys2Proof.Claims

/-- Settles O12: the formula holds for cells of any value, and nibbles do not overlap in it. -/
theorem pointerFormula : Obligations.PointerFormula := fun s => ⟨toNat_pointer s, toNat_pointer_of_nibbles⟩

/-- Settles O13: the two nibbles of an address are its quotient and remainder by 16, and PH:PL puts them together. -/
theorem storePointerSplitsAddress : Obligations.StorePointerSplitsAddress := fun a s =>
  ⟨toNat_storePointer_ph a s, toNat_storePointer_pl a s, pointer_storePointer a s, rfl⟩

/-- Settles O14: modes 1 and 2 store the pointer moved by one modulo 256, and the others leave the state. -/
theorem autoIndexByMode : Obligations.AutoIndexByMode := by
  refine ⟨modeIs_autoIndexOf, fun m s => ⟨indexedFrom_autoIndex m s, ?_, ?_, (autoIndex_of_no_change · s),
    autoIndex_frame m s⟩⟩
  · rintro rfl
    rw [pointer_autoIndex_postInc]
    exact BitVec.toNat_add ..
  · rintro rfl
    have p_lt := (pointer s).isLt
    rw [pointer_autoIndex_postDec, toNat_sub_one]
    omega
end

section
/-! PROOFS. The fields of a byte in numbers, and the statement of the family 30_encoding.md (R57) assembled from
them. -/

namespace Sys2Proof

/-! ### The fields of a byte in numbers -/

/-- `opcode` is the high half of the byte, and no mask is needed: a byte shifted right by four is below 16 (R57). -/
theorem toNat_opcodeField (b : Byte) : (opcodeField b).toNat = b.toNat >>> 4 := by
  have high_lt : b.toNat >>> 4 < 2 ^ 4 := by have b_lt := b.isLt; omega
  rw [opcodeField, BitVec.extractLsb'_toNat, Nat.mod_eq_of_lt high_lt]

theorem toNat_e1Field (b : Byte) : (e1Field b).toNat = (b.toNat >>> 2) &&& 3 := by
  rw [e1Field, BitVec.extractLsb'_toNat]
  exact (Nat.and_two_pow_sub_one_eq_mod _ 2).symm

theorem toNat_e2Field (b : Byte) : (e2Field b).toNat = b.toNat &&& 3 := by
  rw [e2Field, BitVec.extractLsb'_toNat, Nat.shiftRight_zero]
  exact (Nat.and_two_pow_sub_one_eq_mod _ 2).symm

end Sys2Proof

open Sys2Proof

/-- Settles O1: the three fields are the shifts and masks of R57, and the decoder's equation at a nonempty list takes
the head alone. -/
theorem fieldsOfEveryByte : Obligations.FieldsOfEveryByte := fun b _ =>
  ⟨toNat_opcodeField b, toNat_e1Field b, toNat_e2Field b, rfl⟩
end

section
/-! PROOFS. What a byte with a known opcode decodes to, what each of NOP, INA, MOV and STO leaves, and the statements of
the family 40_transfer.md (R73, R74, R75, R76) assembled from them. -/

namespace Sys2Proof.Machine

open Sys2Proof.Claims

/-! ### Decoding a byte whose opcode is known -/

theorem decodeUnder_of_hasOpcode {P : Params} {b : Byte} {o : Opcode} (h : HasOpcode P b o) :
    decodeUnder P b = instrOf P o b := by
  rw [decodeUnder, h]

/-- Opcode 2 is INA whatever else OPCODE_MAP assigns (R66). -/
theorem hasOpcode_ina {P : Params} (lawful : P.Lawful) (imm : Nibble) : HasOpcode P (0x2#4 ++ imm) .ina := by
  obtain ⟨ina, -⟩ := lawful
  rw [HasOpcode, opcodeField_append, ina]

/-- `zext_8` keeps the number a nibble stands for (R2). -/
@[simp] theorem toNat_zext8 (v : Nibble) : (zext8 v).toNat = v.toNat :=
  BitVec.toNat_setWidth_of_le (by decide)

/-! ### A step whose instruction is a no-op -/

/-- While Running, a step whose instruction changes nothing is PC's advance and the boundary check (R26, R27). -/
theorem stepUnder_of_exec_unchanged {P : Params} {s : State} (run : s.run = .running) (h : s.pc.val < 256)
    (unchanged : exec (currentInstr P s) (fetched s h) = .next (fetched s h)) :
    stepUnder P s = .next { fetched s h with run := if s.pc.val = 255 then .halted else .running } := by
  calc stepUnder P s = finish (.next (fetched s h)) := by rw [stepUnder_of_running P run h, unchanged]
    _ = .next (advanced s h) := congrArg Host.Outcome.next (boundaryCheck_fetched s h)
    _ = .next { fetched s h with run := if s.pc.val = 255 then .halted else .running } := by
      rw [advanced, run, fetched]

/-! ### STO -/

/-- The state STO leaves: the store, then auto-index on it (R76). -/
def stored (m : AutoIndex) (rs : Sel) (s : State) : State := autoIndex m (memWrite s (pointer s) (readReg rs s))

theorem exec_sto (m : AutoIndex) (rs : Sel) (s : State) : exec (.sto m rs) s = .next (stored m rs s) := rfl

@[simp] theorem memRead_stored_pointer (m : AutoIndex) (rs : Sel) (s : State) :
    memRead (stored m rs s) (pointer s) = readReg rs s := by
  simp [stored]

theorem memRead_stored_other (m : AutoIndex) (rs : Sel) {s : State} {x : Addr} (ne : x ≠ pointer s) :
    memRead (stored m rs s) x = memRead s x := by
  rw [stored, memRead_autoIndex, memRead_memWrite_other s _ ne]

@[simp] theorem progRead_stored (m : AutoIndex) (rs : Sel) (s : State) (x : Addr) :
    progRead (stored m rs s) x = progRead s x := by
  simp [progRead, stored]

/-- The store moves neither PH nor PL, so auto-index starts from the pointer stored at. -/
theorem indexedFrom_stored (m : AutoIndex) (rs : Sel) (s : State) :
    IndexedFrom (pointer s) s.ph s.pl m (stored m rs s) :=
  indexedFrom_autoIndex m (memWrite s (pointer s) (readReg rs s))

/-- STO writes no register but PH and PL, and no memory but Data. -/
theorem stored_frame (m : AutoIndex) (rs : Sel) (s : State) :
    stored m rs s =
      { s with ph := (stored m rs s).ph, pl := (stored m rs s).pl, data := (stored m rs s).data } := by
  have data : (stored m rs s).data = (memWrite s (pointer s) (readReg rs s)).data := autoIndex_data m _
  rw [data]
  exact autoIndex_frame m _

end Sys2Proof.Machine

open Sys2Proof Sys2Proof.Machine Sys2Proof.Claims

/-- Settles O9: the store's byte is read back at the pointer alone, and auto-index touches no memory. -/
theorem stoStoresAtPointer : Obligations.StoStoresAtPointer := by
  refine ⟨fun P b h => ⟨_, _, modeIs_autoIndexOf _, selectorIs_selOf _, decodeUnder_of_hasOpcode h⟩, fun m rs s => ?_⟩
  exact ⟨stored m rs s, exec_sto m rs s, memRead_stored_pointer m rs s, fun _ => memRead_stored_other m rs,
    progRead_stored m rs s, indexedFrom_stored m rs s, stored_frame m rs s⟩

/-- Settles O6: NOP answers the state it is given, so a step that runs it is PC's advance and the boundary check. -/
theorem nopOnlyAdvancesPc : Obligations.NopOnlyAdvancesPc := by
  refine ⟨fun _ _ => rfl, fun P s h run nop => stepUnder_of_exec_unchanged run h ?_⟩
  rw [currentInstr, decodeUnder_of_hasOpcode nop]
  rfl

/-- Settles O7: the law of OPCODE_MAP fixes the decoding, and INA is one write to A. -/
theorem inaLoadsLowNibble : Obligations.InaLoadsLowNibble := by
  refine ⟨fun P imm lawful => ?_, fun imm s => ⟨writeReg .a (zext8 imm) s, rfl, ?_, rfl, sameMemory_of_eq rfl rfl⟩⟩
  · rw [decodeUnder_of_hasOpcode (hasOpcode_ina lawful imm), instrOf, lowField_append]
  · exact toNat_zext8 imm

/-- Settles O8: MOV is one register write of a whole cell, and writing back a register's own cell changes nothing. -/
theorem movCopiesRegister : Obligations.MovCopiesRegister := by
  refine ⟨fun P b h => ⟨_, _, selectorIs_selOf _, selectorIs_selOf _, decodeUnder_of_hasOpcode h⟩, fun rd rs s => ?_⟩
  refine ⟨writeReg rd (readReg rs s) s, rfl, ?_, fun r ne => ?_, ?_, writeReg_frame rd _ s, ?_⟩
  · simp
  · simp [ne]
  · rintro rfl
    exact writeReg_readReg_self rd s
  · exact sameMemory_of_eq (writeReg_data ..) (writeReg_program ..)
end

section
/-! PROOFS. What selects an ALU operation, what the masked results, the comparison and the unmasked results leave, and
the statements of the family 41_alu.md (R82 to R86, R88 to R93) assembled from them. -/

namespace Sys2Proof.Machine

open Sys2Proof.Claims

/-! ### Selecting an operation -/

/-- Under the ALU opcode the operation that ALU_MAP gives L is the instruction (R78). -/
theorem selectedBy_instr (op : AluOp) : SelectedBy op op.instr := fun P b alu sel => by
  rw [decodeUnder_of_hasOpcode alu, instrOf, sel]

/-! ### Masked results: ADD, SUB, INC and DEC -/

/-- A nibble fits the cell, so `trunc8` keeps the number a masked result stands for (R2, R79). -/
theorem toNat_trunc8_emod (raw : Int) : ((trunc8 (raw % 16)).toNat : Int) = raw % 16 := by
  rw [trunc8, BitVec.toNat_ofInt]
  omega

theorem toNat_carryResult_a (raw : Nat) (s : State) : (carryResult raw s).a.toNat = raw % 16 := by
  have nibble := toNat_trunc8_emod raw
  rw [carryResult_a]
  omega

/-- Carry is bit 2 of FLG, set exactly when the sum leaves the nibble (R18, R80). -/
theorem carryResult_flg_natCast (raw : Nat) (s : State) :
    (carryResult raw s).flg = if 16 ≤ raw then s.flg ||| 0x04#8 else s.flg := by
  rw [carryResult_flg]
  exact if_congr Nat.ofNat_le_cast rfl rfl

theorem toNat_borrowResult_a (raw : Int) (s : State) : ((borrowResult raw s).a.toNat : Int) = raw % 16 := by
  rw [borrowResult_a, toNat_trunc8_emod]

/-- Borrow is bit 3 of FLG, set exactly when the minuend is below the subtrahend (R18, R80). -/
theorem borrowResult_flg_natCast_sub (m n : Nat) (s : State) :
    (borrowResult ((m : Int) - n) s).flg = if m < n then s.flg ||| 0x08#8 else s.flg := by
  rw [borrowResult_flg]
  exact if_congr (by omega) rfl rfl

theorem setFlagIf_frame (c : Bool) (f : Flag) (s : State) :
    setFlagIf c f s = { s with flg := (setFlagIf c f s).flg } := by
  cases c <;> rfl

/-- A flag and then A are all that a masked operation writes, whatever the flag and the result. -/
theorem onlyAFlg_writeReg_setFlagIf (v : Byte) (c : Bool) (f : Flag) (s : State) :
    OnlyAFlg s (writeReg .a v (setFlagIf c f s)) :=
  ⟨congrArg (writeReg .a v) (setFlagIf_frame c f s), sameMemory_of_eq (by simp) (by simp)⟩

theorem onlyAFlg_carryResult (raw : Int) (s : State) : OnlyAFlg s (carryResult raw s) :=
  onlyAFlg_writeReg_setFlagIf ..

theorem onlyAFlg_borrowResult (raw : Int) (s : State) : OnlyAFlg s (borrowResult raw s) :=
  onlyAFlg_writeReg_setFlagIf ..

/-! ### CMP -/

theorem exec_cmp_of_gt {s : State} (gt : s.d.toNat < s.a.toNat) : exec .cmp s = .next (setFlag .greater s) := by
  have ne : s.a ≠ s.d := fun eq => absurd gt (by simp [eq])
  simp [exec, execCmp, setFlagIf, gt, ne]

theorem exec_cmp_of_eq {s : State} (eq : s.a = s.d) : exec .cmp s = .next (setFlag .equal s) := by
  simp [exec, execCmp, setFlagIf, eq]

theorem exec_cmp_of_lt {s : State} (lt : s.a.toNat < s.d.toNat) : exec .cmp s = .next s := by
  have ne : s.a ≠ s.d := fun eq => absurd lt (by simp [eq])
  simp [exec, execCmp, setFlagIf, lt.le, ne]

/-! ### Unmasked results: the bitwise operations -/

/-- An unmasked operation completes, leaves its whole value in A and writes nothing else (R79, R81). -/
theorem unmaskedResult_next {v : Byte} {n : Nat} (value : v.toNat = n) (s : State) :
    ∃ t, unmaskedResult v s = .next t ∧ t.a.toNat = n ∧ OnlyA s t :=
  ⟨writeReg .a v s, rfl, value, rfl, sameMemory_of_eq rfl rfl⟩

end Sys2Proof.Machine

open Sys2Proof Sys2Proof.Machine Sys2Proof.Claims

/-- Settles O15: ADD is the masked result of a sum of naturals. -/
theorem addMasksAndSetsCarry : Obligations.AddMasksAndSetsCarry :=
  ⟨selectedBy_instr .add, fun s => ⟨carryResult (s.a.toNat + s.d.toNat : Nat) s, rfl, toNat_carryResult_a _ s,
    carryResult_flg_natCast _ s, onlyAFlg_carryResult _ s⟩⟩

/-- Settles O16: SUB is the masked result of a difference of naturals, negative exactly when A < D. -/
theorem subMasksAndSetsBorrow : Obligations.SubMasksAndSetsBorrow :=
  ⟨selectedBy_instr .sub, fun s => ⟨borrowResult ((s.a.toNat : Int) - s.d.toNat) s, rfl, toNat_borrowResult_a _ s,
    borrowResult_flg_natCast_sub _ _ s, onlyAFlg_borrowResult _ s⟩⟩

/-- Settles O17: INC is the masked result of A + 1, which is 16 or more exactly when A is 15 or more. -/
theorem incMasksAndSetsCarry : Obligations.IncMasksAndSetsCarry := by
  refine ⟨selectedBy_instr .inc, fun s => ⟨carryResult (s.a.toNat + 1 : Nat) s, rfl, toNat_carryResult_a _ s, ?_,
    onlyAFlg_carryResult _ s⟩⟩
  rw [carryResult_flg_natCast]
  exact if_congr Nat.succ_le_succ_iff rfl rfl

/-- Settles O18: DEC is the masked result of A - 1, congruent to A + 15 and negative exactly when A is 0. -/
theorem decMasksAndSetsBorrow : Obligations.DecMasksAndSetsBorrow := by
  refine ⟨selectedBy_instr .dec, fun s => ⟨borrowResult ((s.a.toNat : Int) - (1 : Nat)) s, rfl, ?_, ?_,
    onlyAFlg_borrowResult _ s⟩⟩
  · have masked := toNat_borrowResult_a ((s.a.toNat : Int) - (1 : Nat)) s
    omega
  · rw [borrowResult_flg_natCast_sub]
    exact if_congr Nat.lt_one_iff rfl rfl

/-- Settles O19: the three outcomes of a comparison set Greater, set Equal, and change nothing. -/
theorem cmpSetsGreaterOrEqual : Obligations.CmpSetsGreaterOrEqual := by
  refine ⟨selectedBy_instr .cmp, fun s => ?_⟩
  obtain lt | eq | gt := Nat.lt_trichotomy s.a.toNat s.d.toNat
  · exact ⟨s, exec_cmp_of_lt lt, by rw [if_neg lt.not_gt, if_neg lt.ne], rfl, sameMemory_of_eq rfl rfl⟩
  · exact ⟨setFlag .equal s, exec_cmp_of_eq (BitVec.eq_of_toNat_eq eq), by rw [if_neg eq.not_gt, if_pos eq]; rfl, rfl,
      sameMemory_of_eq rfl rfl⟩
  · exact ⟨setFlag .greater s, exec_cmp_of_gt gt, by rw [if_pos gt]; rfl, rfl, sameMemory_of_eq rfl rfl⟩

/-- Settles O21: each is one unmasked result, of the bitwise operation on the two cells. -/
theorem andOrXorCombineCells : Obligations.AndOrXorCombineCells :=
  ⟨selectedBy_instr .and, selectedBy_instr .or, selectedBy_instr .xor, fun s =>
    ⟨unmaskedResult_next (BitVec.toNat_and s.a s.d) s, unmaskedResult_next (BitVec.toNat_or s.a s.d) s,
      unmaskedResult_next (BitVec.toNat_xor s.a s.d) s⟩⟩

/-- Settles O22: each is one unmasked result, of the complement of the bitwise operation on the two cells. -/
theorem nandNorXnorComplementCells : Obligations.NandNorXnorComplementCells := by
  refine ⟨selectedBy_instr .nand, selectedBy_instr .nor, selectedBy_instr .xnor, fun s =>
    ⟨unmaskedResult_next ?nand s, unmaskedResult_next ?nor s, unmaskedResult_next ?xnor s⟩⟩
  case nand => rw [BitVec.toNat_not, BitVec.toNat_and]
  case nor => rw [BitVec.toNat_not, BitVec.toNat_or]
  case xnor => rw [BitVec.toNat_not, BitVec.toNat_xor]
end

section
/-! PROOFS. What a byte with an unmapped opcode decodes to, and the statement of the family 42_control.md on unmapped
opcodes (R102) assembled from it. -/

namespace Sys2Proof.Machine

theorem decodeUnder_of_unmapped {P : Params} {b : Byte} (h : P.opcodeMap (opcodeField b) = none) :
    decodeUnder P b = .nop (lowField b) := by
  rw [decodeUnder, h]

end Sys2Proof.Machine

open Sys2Proof Sys2Proof.Machine Sys2Proof.Claims

/-- Settles O37: an unmapped opcode decodes to NOP, and a step that runs NOP is PC's advance and the boundary check. -/
theorem unmappedOpcodeIsNop : Obligations.UnmappedOpcodeIsNop := by
  refine ⟨by decide, fun P s h run unmapped => stepUnder_of_exec_unchanged run h ?_⟩
  rw [currentInstr, decodeUnder_of_unmapped unmapped]
  rfl
end

section
/-! PROOFS. Every instruction answers a next state, and the statement of the family 60_exceptions.md (R110) assembled
from it. -/

namespace Sys2Proof.Machine

open Sys2Proof.Claims

/-- Only ROL and ROR choose between two outcomes, and both of these are next states (R96, R97). -/
theorem exists_exec_next (i : Instr) (s : State) : ∃ t, exec i s = .next t := by
  cases i with
  | rol | ror =>
    by_cases defined : rotateDefined s.d = true
    · exact ⟨_, if_pos defined⟩
    · exact ⟨_, if_neg defined⟩
  | _ => exact ⟨_, rfl⟩

/-- Fetch answers at every address of Program, and decoding and the boundary check never stop a step. -/
theorem exists_stepUnder_next (P : Params) {s : State} (run : s.run = .running) (h : s.pc.val < 256) :
    ∃ t, stepUnder P s = .next t := by
  obtain ⟨u, hu⟩ := exists_exec_next (currentInstr P s) (fetched s h)
  exact ⟨boundaryCheck u, by rw [stepUnder_of_running P run h, hu, finish]⟩

end Sys2Proof.Machine

open Sys2Proof Sys2Proof.Machine Sys2Proof.Claims

/-- Settles O39: every instruction answers a next state, so a Running machine at an address of Program steps whatever
the byte there decodes to. -/
theorem noInstructionFaults : Obligations.NoInstructionFaults :=
  ⟨exists_exec_next, fun P _ => exists_stepUnder_next P⟩
end

section
/-! PROOFS. Encoding and decoding undo each other, and the statements on the decoder assembled from that
(30_encoding.md R57, R59, R64 to R67). The split is the one of the byte: the upper nibble is the opcode's and the lower
the operands'. -/

namespace Sys2Proof

open Sys2Proof.Claims

/-! ### The ALU instructions among all -/

/-- An instruction is that of an ALU operation, or has none (R78). -/
theorem Instr.eq_instr_or_aluOp_eq_none (i : Instr) : (∃ op : AluOp, i = op.instr) ∨ i.aluOp = none := by
  cases h : i.aluOp with
  | none => exact .inr rfl
  | some op => exact .inl ⟨op, by cases i <;> cases h <;> rfl⟩

/-! ### From an instruction to its byte and back -/

/-- The byte of a well-formed instruction is OPCODE_MAP⁻¹ over the low half. -/
theorem encodeUnder_of_wellFormed {P : Params} {i : Instr} {op low : Nibble} (wf : i.WellFormed P)
    (hop : P.opcodeOf i.opcode = some op) (hlow : lowCode P i = some low) : encodeUnder P i = some (op ++ low) := by
  rw [encodeUnder, if_pos wf, hop, hlow]

/-- The low half of a well-formed instruction's byte gives every operand back, whatever the upper half. -/
theorem exists_lowCode {P : Params} {i : Instr} (wf : i.WellFormed P) :
    ∃ low, lowCode P i = some low ∧ ∀ op : Nibble, instrOf P i.opcode (op ++ low) = i := by
  obtain ⟨-, hasOp, mode⟩ := wf
  obtain ⟨op, rfl⟩ | notAlu := i.eq_instr_or_aluOp_eq_none
  · obtain ⟨L, hL⟩ := Option.isSome_iff_exists.mp (hasOp op (by simp))
    refine ⟨L, by simpa using hL, fun _ => ?_⟩
    rw [AluOp.opcode_instr, instrOf, lowField_append, Params.aluMap_of_aluOf hL]
  · cases i with
    | mov | sto | lod => exact ⟨_, rfl, fun _ => by simp [Instr.opcode, instrOf]⟩
    | jit f | jif f =>
      refine ⟨_, rfl, fun _ => ?_⟩
      simp [Instr.opcode, instrOf, ← mode f rfl, flagIndexOf_mode]
    | nop x | ina x | push x | pop x | tak x | prn x | cls x | hlt x | trp x | res x =>
      exact ⟨x, rfl, fun _ => by simp [Instr.opcode, instrOf]⟩
    | _ => cases notAlu

/-! ### From a byte to its instruction and back -/

@[simp] theorem opcode_instrOf (P : Params) (o : Opcode) (b : Byte) : (instrOf P o b).opcode = o := by
  cases o with
  | alu => exact AluOp.opcode_instr _
  | _ => rfl

@[simp] theorem flagIndexOf_mode_eq (mode : FlagIndexMode) (L : Nibble) : (flagIndexOf mode L).mode = mode := by
  cases mode <;> rfl

@[simp] theorem flagIndexCode_flagIndexOf (mode : FlagIndexMode) (L : Nibble) :
    flagIndexCode (flagIndexOf mode L) = L := by
  cases mode <;> rfl

/-- What a mapped byte decodes to is well formed: its opcode, its operation and its mode are the machine's own. -/
theorem wellFormed_instrOf {P : Params} {b : Byte} {o : Opcode} (h : HasOpcode P b o) :
    (instrOf P o b).WellFormed P := by
  refine ⟨by simpa using Params.opcodeOf_isSome h, fun op hop => ?_, fun f hf => ?_⟩
  · cases o with
    | alu =>
      rw [instrOf, AluOp.aluOp_instr, Option.mem_some_iff] at hop
      exact Params.aluOf_isSome hop
    | _ => cases hop
  · cases o with
    | jit | jif => cases hf; simp
    | alu => simp [instrOf] at hf
    | _ => cases hf

/-- Where one value selects an opcode, OPCODE_MAP⁻¹ answers it. -/
theorem Params.opcodeOf_eq_some {P : Params} (inj : ∀ m n o, P.opcodeMap m = some o → P.opcodeMap n = some o → m = n)
    {n : Nibble} {o : Opcode} (h : P.opcodeMap n = some o) : P.opcodeOf o = some n := by
  obtain ⟨m, hm⟩ := Option.isSome_iff_exists.mp (Params.opcodeOf_isSome h)
  rw [hm, inj m n o (Params.opcodeMap_of_opcodeOf hm) h]

/-- ALU_MAP takes no operation twice (R64). -/
theorem Params.Lawful.aluMap_injective {P : Params} (lawful : P.Lawful) : Function.Injective P.aluMap := by
  obtain ⟨-, nodup, -⟩ := lawful
  exact fun m n h => List.inj_on_of_nodup_map nodup (mem_nibbles m) (mem_nibbles n) h

/-- On a lawful machine ALU_MAP⁻¹ undoes ALU_MAP. -/
theorem Params.Lawful.aluOf_aluMap {P : Params} (lawful : P.Lawful) (L : Nibble) : P.aluOf (P.aluMap L) = some L := by
  obtain ⟨m, hm⟩ := Option.isSome_iff_exists.mp (Params.aluOf_isSome (P := P) (n := L) rfl)
  rw [hm, lawful.aluMap_injective (Params.aluMap_of_aluOf hm)]

/-- Decoding drops no bit of the low half. -/
theorem lowCode_instrOf {P : Params} (lawful : P.Lawful) (o : Opcode) (b : Byte) :
    lowCode P (instrOf P o b) = some (lowField b) := by
  cases o with
  | alu => rw [instrOf, lowCode_instr, lawful.aluOf_aluMap]
  | mov | sto | lod => simp [instrOf, lowCode, e1Field_append_e2Field]
  | jit | jif => simp [instrOf, lowCode]
  | _ => rfl

end Sys2Proof

open Sys2Proof Sys2Proof.Machine Sys2Proof.Claims

/-- Settles O3: the upper nibble of the byte selects the opcode again, and the lower gives every operand back. -/
theorem decodeInvertsEncode : Obligations.DecodeInvertsEncode := by
  intro P i wf
  have ⟨mapped, _⟩ := wf
  obtain ⟨op, hop⟩ := Option.isSome_iff_exists.mp mapped
  obtain ⟨low, hlow, back⟩ := exists_lowCode wf
  have opcode : HasOpcode P (op ++ low) i.opcode := by
    rw [HasOpcode, opcodeField_append, Params.opcodeMap_of_opcodeOf hop]
  exact ⟨op ++ low, encodeUnder_of_wellFormed wf hop hlow, by rw [decodeUnder_of_hasOpcode opcode, back op]⟩

/-- Settles O4: injective maps give both halves of the byte back. -/
theorem encodeInvertsDecode : Obligations.EncodeInvertsDecode := by
  intro P lawful inj b o h
  have upper : P.opcodeOf (instrOf P o b).opcode = some (opcodeField b) := by
    rw [opcode_instrOf, Params.opcodeOf_eq_some inj h]
  calc encodeUnder P (decodeUnder P b) = encodeUnder P (instrOf P o b) := by rw [decodeUnder_of_hasOpcode h]
    _ = some (opcodeField b ++ lowField b) :=
      encodeUnder_of_wellFormed (wellFormed_instrOf h) upper (lowCode_instrOf lawful o b)
    _ = some b := by rw [opcodeField_append_lowField]

/-- Settles O2: each of the thirteen bytes is decoded. -/
theorem referenceWordsDecode : Obligations.ReferenceWordsDecode := by
  unfold Obligations.ReferenceWordsDecode
  decide
end

section
/-! PROOFS. What an instruction does not read and does not write. `exec_withUnread` says it once for FLG, SP, Program
and Data: the instruction does the same to everything else whatever they hold, FLG gains the flags it sets, and Data
gains the byte it stores. The statements of 10_state.md R17, R20 and of 20_memory.md R38, R39 are assembled from it. -/

namespace Sys2Proof.Machine

open Sys2Proof.Claims

/-! ### What an instruction adds to FLG and to Data -/

/-- The bit of flag `f`, if its condition holds. -/
def flagBit (c : Bool) (f : Flag) : Byte := if c then 1#8 <<< flagPos f else 0#8

theorem setFlagIf_eq (c : Bool) (f : Flag) (s : State) : setFlagIf c f s = { s with flg := s.flg ||| flagBit c f } := by
  cases c with
  | true => rfl
  | false => simp [setFlagIf, flagBit]

/-- The bits of FLG that an instruction sets from a state: they depend on A and D alone (R20, R80, R86). -/
def flagsSet (i : Instr) (s : State) : Byte :=
  match i with
  | .add => flagBit (decide (16 ≤ (s.a.toNat : Int) + s.d.toNat)) .carry
  | .sub => flagBit (decide ((s.a.toNat : Int) - s.d.toNat < 0)) .borrow
  | .inc => flagBit (decide (16 ≤ (s.a.toNat : Int) + 1)) .carry
  | .dec => flagBit (decide ((s.a.toNat : Int) - 1 < 0)) .borrow
  | .cmp => flagBit (decide (s.d.toNat < s.a.toNat)) .greater ||| flagBit (decide (s.a = s.d)) .equal
  | _ => 0#8

/-- What an instruction makes of a Data memory `q`: STO writes one byte of it (R76), and no other instruction does. -/
def dataAfter (i : Instr) (s : State) (q : Memory) : Memory :=
  match i with
  | .sto _ rs => q.write (pointer s).toNat (readReg rs s)
  | _ => q

theorem dataAfter_of_ne_sto {i : Instr} (h : ∀ m r, i ≠ .sto m r) (s : State) (q : Memory) : dataAfter i s q = q := by
  cases i with
  | sto m r => exact absurd rfl (h m r)
  | _ => rfl

/-! ### Replacing what only some instructions read -/

/-- `s` with another FLG, SP, Program and Data. -/
def State.withUnread (s : State) (flg sp : Byte) (program data : Memory) : State :=
  { s with flg := flg, sp := sp, program := program, data := data }

section
variable (s : State) (f v : Byte) (p q : Memory)

theorem readReg_withUnread (r : Sel) : readReg r (s.withUnread f v p q) = readReg r s := by cases r <;> rfl

theorem writeReg_withUnread (r : Sel) (x : Byte) :
    writeReg r x (s.withUnread f v p q) = (writeReg r x s).withUnread f v p q := by
  cases r <;> rfl

theorem pointer_withUnread : pointer (s.withUnread f v p q) = pointer s := rfl

theorem memWrite_withUnread (x : Addr) (b : Byte) :
    memWrite (s.withUnread f v p q) x b = (memWrite s x b).withUnread f v p (q.write x.toNat b) := rfl

theorem autoIndex_withUnread (m : AutoIndex) :
    autoIndex m (s.withUnread f v p q) = (autoIndex m s).withUnread f v p q := by
  cases m <;> rfl

theorem setFlagIf_withUnread (c : Bool) (g : Flag) :
    setFlagIf c g (s.withUnread f v p q) = (setFlagIf c g s).withUnread (f ||| flagBit c g) v p q := by
  simp only [setFlagIf_eq]
  rfl

theorem carryResult_withUnread (raw : Int) :
    carryResult raw (s.withUnread f v p q) =
      (carryResult raw s).withUnread (f ||| flagBit (decide (16 ≤ raw)) .carry) v p q := by
  rw [carryResult, setFlagIf_withUnread, writeReg_withUnread, carryResult]

theorem borrowResult_withUnread (raw : Int) :
    borrowResult raw (s.withUnread f v p q) =
      (borrowResult raw s).withUnread (f ||| flagBit (decide (raw < 0)) .borrow) v p q := by
  rw [borrowResult, setFlagIf_withUnread, writeReg_withUnread, borrowResult]

theorem rotate_withUnread {s t : State} {defined : Bool} {x : Byte}
    (h : (if defined then unmaskedResult x s else undefinedResult s) = .next t) :
    (if defined then unmaskedResult x (s.withUnread f v p q) else undefinedResult (s.withUnread f v p q)) =
      .next (t.withUnread f v p q) := by
  cases defined <;> cases h <;> rfl

theorem jumpIf_withUnread {s t : State} {taken : Bool} (h : jumpIf taken s = .next t) :
    jumpIf taken (s.withUnread f v p q) = .next (t.withUnread f v p q) := by
  cases taken <;> cases h <;> rfl

/-- Whatever FLG, SP, Program and Data hold, an instruction does the same to everything else, adds the same flags to FLG
and the same byte to Data, and leaves SP and Program; JIT and JIF may read FLG, and LOD may read Data. -/
theorem exec_withUnread {i : Instr} {s t : State} (h : exec i s = .next t)
    (readsFlg : (∃ g, i = .jit g ∨ i = .jif g) → f = s.flg) (readsData : (∃ r m, i = .lod r m) → q = s.data) :
    exec i (s.withUnread f v p q) = .next (t.withUnread (f ||| flagsSet i s) v p (dataAfter i s q)) := by
  cases i with
  | add | inc => cases h; exact congrArg _ (carryResult_withUnread s f v p q _)
  | sub | dec => cases h; exact congrArg _ (borrowResult_withUnread s f v p q _)
  | cmp =>
    cases h
    rw [flagsSet, ← BitVec.or_assoc, ← setFlagIf_withUnread, ← setFlagIf_withUnread]
    rfl
  | rol | ror => simp only [flagsSet, BitVec.or_zero]; exact rotate_withUnread f v p q h
  | jit g | jif g =>
    obtain rfl := readsFlg (by simp)
    simp only [flagsSet, BitVec.or_zero]
    exact jumpIf_withUnread s.flg v p q h
  | mov rd rs =>
    cases h
    simp only [flagsSet, BitVec.or_zero, exec, execMov, readReg_withUnread, writeReg_withUnread]
    rfl
  | sto m rs =>
    cases h
    simp only [flagsSet, BitVec.or_zero, exec, execSto, readReg_withUnread, pointer_withUnread, memWrite_withUnread,
      autoIndex_withUnread]
    rfl
  | lod rd m =>
    obtain rfl := readsData (by simp)
    cases h
    simp only [flagsSet, BitVec.or_zero, exec, execLod, writeReg_withUnread, autoIndex_withUnread]
    rfl
  | _ => cases h; simp only [flagsSet, BitVec.or_zero]; rfl
end

/-- An instruction leaves SP and Program, and adds to FLG and to Data what it would add to any. -/
theorem exec_frame {i : Instr} {s t : State} (h : exec i s = .next t) :
    t.flg = s.flg ||| flagsSet i s ∧ t.sp = s.sp ∧ t.program = s.program ∧ t.data = dataAfter i s s.data := by
  have same : exec i s = .next (t.withUnread (s.flg ||| flagsSet i s) s.sp s.program (dataAfter i s s.data)) :=
    exec_withUnread s.flg s.sp s.program s.data h (fun _ => rfl) (fun _ => rfl)
  rw [h, Host.Outcome.next.injEq] at same
  rw [same]
  exact ⟨rfl, rfl, rfl, rfl⟩

/-- With another Program and another Data, an instruction that does not load does the same to everything else. -/
theorem exec_withMemory {i : Instr} {s t : State} (h : exec i s = .next t) (p q : Memory)
    (readsData : (∃ r m, i = .lod r m) → q = s.data) :
    exec i { s with program := p, data := q } = .next { t with program := p, data := dataAfter i s q } := by
  obtain ⟨flg, sp, -, -⟩ := exec_frame h
  calc exec i { s with program := p, data := q } = exec i (s.withUnread s.flg s.sp p q) := rfl
    _ = .next (t.withUnread (s.flg ||| flagsSet i s) s.sp p (dataAfter i s q)) :=
      exec_withUnread s.flg s.sp p q h (fun _ => rfl) readsData
    _ = .next { t with program := p, data := dataAfter i s q } := by rw [← flg, ← sp]; rfl

/-- With another SP, an instruction does the same to everything else. -/
theorem exec_withSp {i : Instr} {s t : State} (h : exec i s = .next t) (v : Byte) :
    exec i { s with sp := v } = .next { t with sp := v } := by
  obtain ⟨flg, -, program, data⟩ := exec_frame h
  calc exec i { s with sp := v } = exec i (s.withUnread s.flg v s.program s.data) := rfl
    _ = .next (t.withUnread (s.flg ||| flagsSet i s) v s.program (dataAfter i s s.data)) :=
      exec_withUnread s.flg v s.program s.data h (fun _ => rfl) (fun _ => rfl)
    _ = .next { t with sp := v } := by rw [← flg, ← program, ← data]; rfl

/-- With another FLG, an instruction that is no jump does the same to everything else. -/
theorem exec_withFlg {i : Instr} {s t : State} (h : exec i s = .next t) (noJump : ∀ f, i ≠ .jit f ∧ i ≠ .jif f)
    (v : Byte) : exec i { s with flg := v } = .next { t with flg := v ||| flagsSet i s } := by
  obtain ⟨-, sp, program, data⟩ := exec_frame h
  have readsFlg : (∃ g, i = .jit g ∨ i = .jif g) → v = s.flg := fun ⟨g, jump⟩ => by
    obtain ⟨noJit, noJif⟩ := noJump g
    exact absurd jump (not_or.mpr ⟨noJit, noJif⟩)
  calc exec i { s with flg := v } = exec i (s.withUnread v s.sp s.program s.data) := rfl
    _ = .next (t.withUnread (v ||| flagsSet i s) s.sp s.program (dataAfter i s s.data)) :=
      exec_withUnread v s.sp s.program s.data h readsFlg (fun _ => rfl)
    _ = .next { t with flg := v ||| flagsSet i s } := by rw [← sp, ← program, ← data]; rfl

/-- What a read of Data gives after an instruction: STO's byte at the pointer, and what was there anywhere else. -/
theorem read_dataAfter_sto (m : AutoIndex) (rs : Sel) (s : State) (q : Memory) (x : Addr) :
    (dataAfter (.sto m rs) s q).read x.toNat = if x = pointer s then readReg rs s else q.read x.toNat := by
  rw [dataAfter]
  by_cases at_pointer : x = pointer s
  · rw [if_pos at_pointer, at_pointer, Memory.read_write_same]
  · rw [if_neg at_pointer, Memory.read_write_other q _ fun eq => at_pointer (BitVec.eq_of_toNat_eq eq)]

/-! ### The same for a step -/

/-- The boundary check does not read SP. -/
theorem boundaryCheck_withSp (s : State) (v : Byte) :
    boundaryCheck { s with sp := v } = { boundaryCheck s with sp := v } := by
  unfold boundaryCheck
  split <;> rfl

/-- With another SP, a step does the same to everything else. -/
theorem stepUnder_withSp {P : Params} {s t : State} (h : stepUnder P s = .next t) (v : Byte) :
    stepUnder P { s with sp := v } = .next { t with sp := v } := by
  obtain ⟨run, lt, u, hu, rfl⟩ := stepUnder_next h
  calc stepUnder P { s with sp := v } = finish (exec (currentInstr P s) { fetched s lt with sp := v }) :=
        stepUnder_of_running P (s := { s with sp := v }) run lt
    _ = .next (boundaryCheck { u with sp := v }) := by rw [fetched, exec_withSp hu v, finish]
    _ = .next { boundaryCheck u with sp := v } := by rw [boundaryCheck_withSp]

/-- A step leaves SP and Program. -/
theorem stepUnder_sp_program {P : Params} {s t : State} (h : stepUnder P s = .next t) :
    t.sp = s.sp ∧ t.program = s.program := by
  obtain ⟨-, lt, u, hu, rfl⟩ := stepUnder_next h
  obtain ⟨-, sp, program, -⟩ := exec_frame hu
  exact ⟨by rw [boundaryCheck_sp, sp], by rw [boundaryCheck_program, program]⟩

end Sys2Proof.Machine

open Sys2Proof Sys2Proof.Machine Sys2Proof.Claims

/-- Settles O30: an instruction adds to FLG the same flags whatever it holds, unless it is a jump, which tests it. -/
theorem instructionsOnlySetTheirFlags : Obligations.InstructionsOnlySetTheirFlags := by
  intro i s t h
  obtain ⟨kept, within⟩ := exec_flg h
  exact ⟨kept, within, fun noJump v => ⟨_, exec_withFlg h noJump v⟩⟩

/-- Settles O44: no instruction reads or writes Program, and a step is a fetch and an instruction. -/
theorem programIsOnlyFetched : Obligations.ProgramIsOnlyFetched := by
  refine ⟨fun i s t p h => ?_, fun P s t h x => ?_⟩
  · obtain ⟨-, -, program, data⟩ := exec_frame h
    refine ⟨program, (exec_withMemory h p s.data fun _ => rfl).trans ?_⟩
    rw [← data]
  · obtain ⟨-, program⟩ := stepUnder_sp_program h
    rw [progRead, progRead, program]

/-- Settles O45: STO adds one byte to whatever Data holds, LOD alone reads it, and any other instruction leaves it. -/
theorem dataOnlyByStoAndLod : Obligations.DataOnlyByStoAndLod := by
  intro i s t h
  obtain ⟨-, -, program, data⟩ := exec_frame h
  have other (q : Memory) (notLod : ∀ r m, i ≠ .lod r m) :
      exec i { s with data := q } = .next { t with data := dataAfter i s q } := by
    refine (exec_withMemory h s.program q fun ⟨r, m, lod⟩ => absurd lod (notLod r m)).trans ?_
    rw [← program]
  refine ⟨fun notSto => ?_, fun notSto notLod q => ?_, ?_⟩
  · rw [dataAfter_of_ne_sto notSto] at data
    exact ⟨fun x => by rw [memRead, memRead, data], data⟩
  · rw [other q notLod, dataAfter_of_ne_sto notSto]
  · rintro m r rfl q
    exact ⟨_, other q nofun, read_dataAfter_sto m r s q⟩

/-- Settles O46: no instruction reads or writes SP, and fetch and the boundary check do not either. -/
theorem spIsNeverUsed : Obligations.SpIsNeverUsed := by
  intro P s t v h
  obtain ⟨sp, -⟩ := stepUnder_sp_program h
  exact ⟨sp, stepUnder_withSp h v⟩
end

section
/-! PROOFS. What every step and every run keep: the invariant, the flags that are set, and the advance of PC; how a run
ends; and the statements of 10_state.md, 42_control.md and 70_reset_and_hazards.md on the machine as a whole assembled
from them. -/

namespace Sys2Proof.Machine

open Sys2Proof.Claims

/-! ### The invariant -/

/-- An instruction keeps Data canonical: the one byte that STO writes is inside the space. -/
theorem wf_dataAfter (i : Instr) (s : State) {q : Memory} (wf : q.wf) : (dataAfter i s q).wf := by
  cases i with
  | sto m rs => exact Memory.wf_write wf (pointer s).isLt _
  | _ => exact wf

/-- A byte is a nibble when its upper four bits are 0. -/
theorem toNat_lt_sixteen_iff (v : Byte) : v.toNat < 16 ↔ v &&& 0xF0#8 = 0#8 := by
  revert v
  decide

/-- The flags that instructions set are in the lower four bits of FLG (R18, R20). -/
theorem settable_and_upper (i : Instr) : settable i &&& 0xF0#8 = 0#8 := by
  cases i with
  | add | sub | inc | dec | cmp => rfl
  | _ => exact BitVec.zero_and

/-- Setting bits in the lower four only keeps the upper four. -/
theorem OnlySets.and_upper {mask v w : Byte} (h : OnlySets mask v w) (lower : mask &&& 0xF0#8 = 0#8) :
    w &&& 0xF0#8 = v &&& 0xF0#8 := by
  obtain ⟨-, within⟩ := h
  have complement : ∀ m : Byte, m &&& 0xF0#8 = 0#8 → ~~~m &&& 0xF0#8 = 0xF0#8 := by decide
  rw [← complement mask lower, ← BitVec.and_assoc, within, BitVec.and_assoc]

/-- A step that leaves the machine Running leaves PC in Program: the boundary check halts any other (R27). -/
theorem stepUnder_pc_lt_of_running {P : Params} {s t : State} (h : stepUnder P s = .next t) (run : t.run = .running) :
    t.pc.val < 256 := by
  obtain ⟨-, lt, u, -, rfl⟩ := stepUnder_next h
  by_contra above
  rw [boundaryCheck_pc] at above
  rw [boundaryCheck_run, if_pos (by omega)] at run
  cases run

/-- A step keeps the invariant: Program and FLG's upper bits stay, Data takes at most a byte inside the space, and the
boundary check halts a PC above 255. -/
theorem stepUnder_inv {P : Params} {s t : State} (inv : s.Inv) (h : stepUnder P s = .next t) : t.Inv := by
  have pcLt := stepUnder_pc_lt_of_running h
  obtain ⟨programWf, dataWf, flgLt, -⟩ := inv
  obtain ⟨-, lt, u, hu, rfl⟩ := stepUnder_next h
  obtain ⟨-, -, program, data⟩ := exec_frame hu
  have flg := (exec_flg hu).and_upper (settable_and_upper _)
  refine ⟨?_, ?_, ?_, pcLt⟩
  · rwa [boundaryCheck_program, program]
  · rw [boundaryCheck_data, data]
    exact wf_dataAfter _ _ dataWf
  · rw [toNat_lt_sixteen_iff] at flgLt ⊢
    rw [boundaryCheck_flg, flg, flgLt]

/-! ### Runs -/

theorem runUnder_succ {P : Params} {s t : State} (h : stepUnder P s = .next t) (n : Nat) :
    runUnder P (n + 1) s = runUnder P n t := by
  rw [runUnder, h]

/-- A run of one step more is a step and a run. -/
theorem runUnder_succ_next {P : Params} {n : Nat} {s t : State} (h : runUnder P (n + 1) s = .next t) :
    ∃ u, stepUnder P s = .next u ∧ runUnder P n u = .next t := by
  cases hs : stepUnder P s with
  | next u => exact ⟨u, rfl, by rwa [runUnder_succ hs] at h⟩
  | fault r => rw [runUnder, hs] at h; cases h
  | refused r => rw [runUnder, hs] at h; cases h

/-- What every step keeps, every run keeps. -/
theorem runUnder_keeps {P : Params} {p : State → Prop} (keeps : ∀ {s t}, stepUnder P s = .next t → p s → p t)
    {n : Nat} {s t : State} (h : runUnder P n s = .next t) (hs : p s) : p t := by
  induction n generalizing s with
  | zero => cases h; exact hs
  | succ n ih =>
    obtain ⟨u, hu, rest⟩ := runUnder_succ_next h
    exact ih rest (keeps hu hs)

/-- A flag that is set stays set in a step (R20). -/
theorem stepUnder_getLsbD_flg {P : Params} {s t : State} {k : Nat} (h : stepUnder P s = .next t)
    (hk : s.flg.getLsbD k = true) : t.flg.getLsbD k = true := by
  obtain ⟨-, lt, u, hu, rfl⟩ := stepUnder_next h
  rw [boundaryCheck_flg]
  exact (exec_flg hu).getLsbD hk

/-- A step that takes no jump advances PC (R26). -/
theorem stepUnder_pc_of_no_jump {P : Params} {s t : State} (h : stepUnder P s = .next t)
    (no : ¬ TakesJump (currentInstr P s) s.flg) : t.pc.val = s.pc.val + 1 := by
  obtain ⟨-, -, ⟨-, -, pc, -⟩ | ⟨-, jump, -⟩ | ⟨-, -, pc, -⟩⟩ := stepUnder_control h
  · exact pc
  · exact absurd jump no
  · exact pc

/-- A step that takes a jump loads PC with the pointer (R99, R100). -/
theorem stepUnder_pc_of_jump {P : Params} {s t : State} (h : stepUnder P s = .next t)
    (jump : TakesJump (currentInstr P s) s.flg) : t.pc.val = (pointer s).toNat := by
  obtain ⟨-, -, ⟨-, no, -⟩ | ⟨-, -, pc, -⟩ | ⟨-, no, -⟩⟩ := stepUnder_control h
  · exact absurd jump no
  · exact pc
  · exact absurd jump no

/-- With `k` addresses of Program from PC on, a run without a taken jump halts within `k` steps (R130). -/
theorem exists_runUnder_halted {P : Params} {k : Nat} {s : State} (run : s.run = .running) (lt : s.pc.val < 256)
    (distance : s.pc.val + k = 256)
    (no : ∀ n t, runUnder P n s = .next t → t.run = .running → ¬ TakesJump (currentInstr P t) t.flg) :
    ∃ n t, n ≤ k ∧ runUnder P n s = .next t ∧ t.run = .halted := by
  induction k generalizing s with
  | zero => omega
  | succ k ih =>
    obtain ⟨t, ht⟩ := exists_stepUnder_next P run lt
    have pc := stepUnder_pc_of_no_jump ht (no 0 s rfl run)
    cases hrun : t.run with
    | halted => exact ⟨1, t, by omega, runUnder_succ ht 0, hrun⟩
    | running =>
      obtain ⟨n, u, n_le, hn, halted⟩ := ih hrun (stepUnder_pc_lt_of_running ht hrun) (by omega) fun n u hn =>
        no (n + 1) u ((runUnder_succ ht n).trans hn)
      exact ⟨n + 1, u, by omega, (runUnder_succ ht n).trans hn, halted⟩

/-! ### Halted -/

theorem stepUnder_of_halted (P : Params) {s : State} (halted : s.run = .halted) : stepUnder P s = .fault .halted := by
  rw [stepUnder, halted]

theorem boundaryCheck_of_halted {s : State} (halted : s.run = .halted) : boundaryCheck s = s := by
  unfold boundaryCheck
  split
  · rw [halt, ← halted]
  · rfl

theorem halted_iff (s : State) : s.halted = true ↔ s.run = .halted := by simp [State.halted]

theorem exec_reserved {o : Opcode} (reserved : o ∈ [Opcode.push, .pop, .tak, .prn, .cls, .trp, .res]) (P : Params)
    (b : Byte) (s : State) : exec (instrOf P o b) s = .next s := by
  cases o with
  | push | pop | tak | prn | cls | trp | res => rfl
  | _ => simp at reserved

end Sys2Proof.Machine

open Sys2Proof Sys2Proof.Machine Sys2Proof.Claims

/-- Settles O48: a step keeps the invariant under any parameters, the reference ones included. -/
theorem stepKeepsInvariant : Obligations.StepKeepsInvariant := fun _ _ inv =>
  ⟨stepUnder_inv inv, fun _ => stepUnder_inv inv⟩

/-- Settles O31: every step keeps a set flag set, so every run does. -/
theorem flagsOnlyGrowAlongRuns : Obligations.FlagsOnlyGrowAlongRuns := fun _ _ _ _ h k =>
  runUnder_keeps (p := fun s => s.flg.getLsbD k = true) stepUnder_getLsbD_flg h

/-- Settles O42: of the ways a step can end, a taken jump alone loads PC. -/
theorem pcAdvancesOrJumps : Obligations.PcAdvancesOrJumps := fun _ _ _ h =>
  ⟨stepUnder_pc_of_jump h, stepUnder_pc_of_no_jump h⟩

/-- Settles O51: each step without a jump brings PC nearer to 256, where the boundary check halts. -/
theorem runWithoutJumpsHalts : Obligations.RunWithoutJumpsHalts := by
  intro P s run lt no
  exact exists_runUnder_halted run lt (by omega) no

/-- Settles O47: reset has empty memories, and launch lays an image of 256 bytes out from address 0. -/
theorem launchMeetsInvariant : Obligations.LaunchMeetsInvariant := by
  have reset : State.reset.Inv := by decide
  have ⟨_, data, flg, pc⟩ := reset
  exact ⟨reset, fun image => ⟨Memory.wf_ofBytes (by simp), data, flg, pc⟩⟩

/-- Settles O40: `stepUnder` reads run before it fetches. -/
theorem haltedHasNoStep : Obligations.HaltedHasNoStep := fun P _ => stepUnder_of_halted P

/-- Settles O35: HLT sets run and nothing else, and the boundary check after it changes nothing. -/
theorem hltHaltsForGood : Obligations.HltHaltsForGood := by
  refine ⟨fun _ _ => rfl, fun P s h run hlt => ⟨?_, stepUnder_of_halted P rfl⟩⟩
  have instr : currentInstr P s = .hlt (lowField (currentByte s)) := decodeUnder_of_hasOpcode hlt
  rw [stepUnder_of_running P run h, instr, exec, execHlt, finish, boundaryCheck_of_halted (halt_run _)]
  rfl

/-- Settles O36: each reserved opcode answers the state it is given, so a step that runs one is PC's advance and the
boundary check. -/
theorem reservedOpcodesAreNoOps : Obligations.ReservedOpcodesAreNoOps := by
  refine ⟨fun _ _ => ⟨rfl, rfl, rfl, rfl, rfl, rfl, rfl⟩, fun P s h o run reserved opcode => ?_⟩
  refine stepUnder_of_exec_unchanged run h ?_
  rw [currentInstr, decodeUnder_of_hasOpcode opcode, exec_reserved reserved]

/-- Settles O52: at PC = 256 the boundary check halts what NOP leaves, and keeps what HLT leaves. -/
theorem haltCauseIsNotRecorded : Obligations.HaltCauseIsNotRecorded := by
  intro x y s pc
  have afterHlt : finish (exec (.hlt x) s) = .next (halt s) :=
    congrArg _ (boundaryCheck_of_halted (halt_run s))
  have afterNop : finish (exec (.nop y) s) = .next (halt s) :=
    congrArg _ (boundaryCheck_of_lt (by omega))
  exact ⟨afterHlt.trans afterNop.symm, afterHlt⟩

/-- Settles O54: `tick` asks `advance` and `halted` before it steps. -/
theorem advancePermitsOneStep : Obligations.AdvancePermitsOneStep := fun s =>
  ⟨rfl, fun halted => by simp [tick, halted], fun running => by simp [tick, running], halted_iff s⟩
end

section
/-! PROOFS. What identifies a canonical memory, what launch puts into Program, and the way of a byte through Data and
back: the statements of 10_state.md R32, of 20_memory.md R37, R41 and of 40_transfer.md R77 assembled from them. -/

namespace Sys2Proof.Machine

open Sys2Proof.Claims

/-! ### Canonical memories -/

/-- A canonical memory lists exactly the bytes that do not read as blank. -/
theorem Memory.mem_iff {m : Memory} (wf : m.wf) (c : Host.Cell) : c ∈ m ↔ m.read c.1 = c.2 ∧ c.2 ≠ Memory.blank := by
  obtain ⟨sorted, cells⟩ := wf
  induction m with
  | nil => simpa using fun eq => eq.symm
  | cons e m ih =>
    obtain ⟨above, sorted'⟩ := List.pairwise_cons.mp sorted
    obtain ⟨⟨-, notBlank⟩, cells'⟩ := List.forall_mem_cons.mp cells
    rw [List.mem_cons, ih sorted' cells', Memory.read_cons]
    by_cases here : e.1 = c.1
    · have rest : Memory.read m c.1 = Memory.blank := Memory.read_of_absent fun d hd => here ▸ (above d hd).ne'
      rw [if_pos here, rest]
      constructor
      · rintro (rfl | ⟨blank, ne⟩)
        · exact ⟨rfl, notBlank⟩
        · exact absurd blank.symm ne
      · exact fun ⟨byte, _⟩ => .inl (Prod.ext here byte).symm
    · have ne : c ≠ e := fun eq => here (by rw [eq])
      rw [if_neg here, or_iff_right ne]

/-- A cell of a canonical memory is a cell of every other that reads the same. -/
theorem Memory.mem_of_read_eq {m n : Memory} (hm : m.wf) (hn : n.wf) (same : ∀ x, x < 256 → m.read x = n.read x)
    {c : Host.Cell} (hc : c ∈ m) : c ∈ n := by
  have ⟨_, cells⟩ := hm
  obtain ⟨lt, -⟩ := cells c hc
  rwa [Memory.mem_iff hn, ← same c.1 lt, ← Memory.mem_iff hm]

/-- Canonical memories with the same cells list them in the same order. -/
theorem Memory.eq_of_mem_iff {m n : Memory} (hm : m.wf) (hn : n.wf) (same : ∀ c, c ∈ m ↔ c ∈ n) : m = n := by
  obtain ⟨mSorted, -⟩ := hm
  obtain ⟨nSorted, -⟩ := hn
  have : Std.Asymm fun x y : Host.Cell => x.1 < y.1 := ⟨fun _ _ => Nat.lt_asymm⟩
  exact mSorted.eq_of_mem_iff nSorted same

/-! ### LOD -/

/-- The state LOD leaves: the load, then auto-index on it (R77). -/
def loaded (rd : Sel) (m : AutoIndex) (s : State) : State := autoIndex m (writeReg rd (memRead s (pointer s)) s)

theorem exec_lod (rd : Sel) (m : AutoIndex) (s : State) : exec (.lod rd m) s = .next (loaded rd m s) := rfl

/-- Auto-index starts from the pointer that the load leaves (R77, D20). -/
theorem indexedFrom_loaded (rd : Sel) (m : AutoIndex) (s : State) :
    let v := memRead s (pointer s)
    let ph := if rd = .ph then v else s.ph
    let pl := if rd = .pl then v else s.pl
    IndexedFrom ((ph <<< 4) ||| pl) ph pl m (loaded rd m s) := by
  intro v ph pl
  have indexed := indexedFrom_autoIndex m (writeReg rd v s)
  rwa [pointer, writeReg_ph, writeReg_pl] at indexed

/-- LOD writes no register but the four that can be selected, and no memory. -/
theorem loaded_frame (rd : Sel) (m : AutoIndex) (s : State) :
    loaded rd m s = { s with
      a := (loaded rd m s).a, d := (loaded rd m s).d, pl := (loaded rd m s).pl, ph := (loaded rd m s).ph } := by
  rw [loaded, autoIndex_a, autoIndex_d]
  refine (autoIndex_frame m _).trans ?_
  cases rd <;> rfl

theorem readReg_loaded_of_no_change {m : AutoIndex} (h : m = .keep ∨ m = .unassigned) (rd : Sel) (s : State) :
    readReg rd (loaded rd m s) = memRead s (pointer s) := by
  rw [loaded, autoIndex_of_no_change h, readReg_writeReg, if_pos rfl]

theorem pointer_stored_of_no_change {m : AutoIndex} (h : m = .keep ∨ m = .unassigned) (rs : Sel) (s : State) :
    pointer (stored m rs s) = pointer s := by
  rw [stored, autoIndex_of_no_change h]
  rfl

end Sys2Proof.Machine

open Sys2Proof Sys2Proof.Machine Sys2Proof.Claims

/-- Settles O53: memories that read the same list the same cells, in the one order that the canonical form allows. -/
theorem equalReadsEqualMemory : Obligations.EqualReadsEqualMemory := by
  intro m n hm hn same
  exact Memory.eq_of_mem_iff hm hn fun c =>
    ⟨Memory.mem_of_read_eq hm hn same, Memory.mem_of_read_eq hn hm fun x lt => (same x lt).symm⟩

/-- Settles O50: launch lays the image out from address 0, and an image is its bytes followed by zeros. -/
theorem launchHoldsImage : Obligations.LaunchHoldsImage := by
  refine ⟨fun image x => ?_, fun bytes => ⟨fun long => ?_, fun short => ⟨_, if_pos short, fun k h => ?_⟩⟩⟩
  · have read := Memory.read_ofBytes 0 image.toList x.toNat
    have x_lt : x.toNat < 256 := x.isLt
    rw [Nat.zero_add] at read
    calc progRead (State.launch image) x = image.toList.getD x.toNat Memory.blank := read
      _ = image[x.toNat] := by simp [List.getD_eq_getElem?_getD, x_lt]
  · exact if_neg (by omega)
  · exact Vector.getElem_ofFn h

/-- Settles O10: LOD is one write of a selected register and auto-index on the state that leaves. -/
theorem lodLoadsFromPointer : Obligations.LodLoadsFromPointer := by
  refine ⟨fun P b h => ⟨_, _, selectorIs_selOf _, modeIs_autoIndexOf _, decodeUnder_of_hasOpcode h⟩, fun rd m s => ?_⟩
  refine ⟨loaded rd m s, exec_lod rd m s, ?_, ?_, indexedFrom_loaded rd m s, loaded_frame rd m s, ?_⟩
  · rw [loaded, autoIndex_a, writeReg_a]
  · rw [loaded, autoIndex_d, writeReg_d]
  · exact sameMemory_of_eq (by simp [loaded]) (by simp [loaded])

/-- Settles O11: without auto-index the store leaves the pointer, so the load reads the byte stored. -/
theorem storeThenLoadReturnsValue : Obligations.StoreThenLoadReturnsValue := by
  intro m k r q s hm hk
  refine ⟨stored m r s, loaded q k (stored m r s), rfl, rfl, ?_⟩
  rw [readReg_loaded_of_no_change hk, pointer_stored_of_no_change hm, memRead_stored_pointer]
end

section
/-! PROOFS. The conditional jumps: what the indexed flag is in numbers, and what a jump leaves; the statements of
42_control.md R99, R100 assembled from them. -/

namespace Sys2Proof.Machine

open Sys2Proof.Claims

/-- Under POSITION the condition is bit L of FLG (R65). -/
theorem cond_position (L : Nibble) (flg : Byte) :
    cond (.position L) flg = decide ((flg.toNat >>> L.toNat) % 2 = 1) := by
  have bit : ((flg >>> L.toNat) &&& 1#8).toNat = (flg.toNat >>> L.toNat) % 2 := by
    rw [BitVec.toNat_and, BitVec.toNat_ushiftRight]
    exact Nat.and_one_is_mod _
  rw [cond, Bool.eq_iff_iff, beq_iff_eq, decide_eq_true_iff, ← BitVec.toNat_inj, bit]
  rfl

/-- Under BITMASK the condition is FLG AND L against 0 (R65). -/
theorem cond_bitmask (L : Nibble) (flg : Byte) : cond (.bitmask L) flg = decide (flg.toNat &&& L.toNat ≠ 0) := by
  have mask : (flg &&& zext8 L).toNat = flg.toNat &&& L.toNat := by rw [BitVec.toNat_and, toNat_zext8]
  rw [cond, Bool.eq_iff_iff, bne_iff_ne, decide_eq_true_iff, ne_eq, ← BitVec.toNat_inj, mask]
  rfl

/-- With FLG a nibble, no bit at position 4 or above is set (R21, R65). -/
theorem cond_position_of_high {L : Nibble} {flg : Byte} (flg_lt : flg.toNat < 16) (high : 4 ≤ L.toNat) :
    cond (.position L) flg = false := by
  have small : flg.toNat < 2 ^ L.toNat := flg_lt.trans_le (Nat.pow_le_pow_right (n := 2) (by decide) high)
  rw [cond_position, Nat.shiftRight_eq_div_pow, Nat.div_eq_of_lt small]
  rfl

/-- A jump completes and writes PC alone, with the pointer if it is taken (R98). -/
theorem jumpIf_next (taken : Bool) (s : State) :
    ∃ t, jumpIf taken s = .next t ∧ OnlyPc s t ∧ t.pc.val = if taken then (pointer s).toNat else s.pc.val := by
  cases taken with
  | true => exact ⟨jumpTo (pointer s) s, rfl, ⟨rfl, sameMemory_of_eq rfl rfl⟩, rfl⟩
  | false => exact ⟨s, rfl, ⟨rfl, sameMemory_of_eq rfl rfl⟩, rfl⟩

/-- The same with the condition in numbers. -/
theorem jumpIf_next_of_iff {taken : Bool} {c : Prop} [Decidable c] (h : taken = true ↔ c) (s : State) :
    ∃ t, jumpIf taken s = .next t ∧ OnlyPc s t ∧ t.pc.val = if c then (pointer s).toNat else s.pc.val := by
  obtain ⟨t, next, only, pc⟩ := jumpIf_next taken s
  exact ⟨t, next, only, pc.trans (if_congr h rfl rfl)⟩

end Sys2Proof.Machine

open Sys2Proof Sys2Proof.Machine Sys2Proof.Claims

/-- Settles O32: JIT jumps on the condition, which is bit L of FLG or FLG AND L in numbers. -/
theorem jitJumpsIfFlagSet : Obligations.JitJumpsIfFlagSet := by
  refine ⟨fun P b jit => ?_, fun L s => ⟨jumpIf_next_of_iff ?_ s, jumpIf_next_of_iff ?_ s⟩⟩
  · rw [decodeUnder_of_hasOpcode jit, instrOf]
    exact ⟨fun mode => by rw [mode]; rfl, fun mode => by rw [mode]; rfl⟩
  · rw [cond_position, decide_eq_true_iff]
  · rw [cond_bitmask, decide_eq_true_iff]

/-- Settles O33: JIF jumps where JIT does not. -/
theorem jifJumpsIfFlagClear : Obligations.JifJumpsIfFlagClear := by
  refine ⟨fun P b jif => ?_, fun L s => ⟨jumpIf_next_of_iff ?_ s, jumpIf_next_of_iff ?_ s⟩⟩
  · rw [decodeUnder_of_hasOpcode jif, instrOf]
    exact ⟨fun mode => by rw [mode]; rfl, fun mode => by rw [mode]; rfl⟩
  · rw [cond_position, Bool.not_eq_true', decide_eq_false_iff_not, Nat.mod_two_not_eq_one]
  · rw [cond_bitmask, Bool.not_eq_true', decide_eq_false_iff_not, not_not]

/-- Settles O34: the invariant leaves no bit for an index of 4 or more to read, so JIT is not taken and JIF is. -/
theorem highFlagIndexNeverSet : Obligations.HighFlagIndexNeverSet := by
  intro L s inv high
  obtain ⟨-, -, flg_lt, -⟩ := inv
  have clear := cond_position_of_high flg_lt high
  obtain ⟨t, next, only, pc⟩ := jumpIf_next true s
  refine ⟨?_, t, ?_, pc, only⟩
  · rw [exec, execJit, clear]
    rfl
  · rw [exec, execJif, clear]
    exact next
end

section
/-! PROOFS. What the ALU operations depend on, which of them mask, and the results of NOT, the shifts and the rotates in
numbers; the statements of 41_alu.md R78, R79, R87, R94 to R97 assembled from them. -/

namespace Sys2Proof.Machine

open Sys2Proof.Claims

/-! ### Rotates -/

theorem rotateDefined_iff (count : Byte) : rotateDefined count = true ↔ 1 ≤ count.toNat ∧ count.toNat ≤ 3 :=
  decide_eq_true_iff

/-- A rotate completes and writes A alone at a defined count; at any other it takes a draw into A (R96, R97). -/
theorem exists_rotate_next {v : Byte} {n : Nat} (value : v.toNat = n) (s : State) :
    ∃ t, (if rotateDefined s.d then unmaskedResult v s else undefinedResult s) = .next t ∧ OnlyADraws s t ∧
      if 1 ≤ s.d.toNat ∧ s.d.toNat ≤ 3 then t.a.toNat = n ∧ t.draws = s.draws
      else t.a = Config.undef8 s.draws ∧ t.draws = s.draws + 1 := by
  simp only [← rotateDefined_iff]
  cases rotateDefined s.d with
  | true => exact ⟨writeReg .a v s, rfl, ⟨rfl, sameMemory_of_eq rfl rfl⟩, value, rfl⟩
  | false => exact ⟨writeReg .a (draw s).1 (draw s).2, rfl, ⟨rfl, sameMemory_of_eq rfl rfl⟩, rfl, rfl⟩

/-- Two shifts of a cell, one each way, joined in the cell (R96, R97). -/
theorem toNat_shiftLeft_or_ushiftRight (x : Byte) (m n : Nat) :
    ((x <<< m) ||| (x >>> n)).toNat = ((x.toNat * 2 ^ m) ||| (x.toNat / 2 ^ n)) % 256 := by
  have right_lt : x.toNat / 2 ^ n < 2 ^ 8 := (Nat.div_le_self _ _).trans_lt x.isLt
  calc ((x <<< m) ||| (x >>> n)).toNat = x.toNat * 2 ^ m % 2 ^ 8 ||| x.toNat / 2 ^ n := by
        rw [BitVec.toNat_or, BitVec.toNat_shiftLeft, BitVec.toNat_ushiftRight, Nat.shiftLeft_eq,
          Nat.shiftRight_eq_div_pow]
    _ = x.toNat * 2 ^ m % 2 ^ 8 ||| x.toNat / 2 ^ n % 2 ^ 8 := by rw [Nat.mod_eq_of_lt right_lt]
    _ = ((x.toNat * 2 ^ m) ||| (x.toNat / 2 ^ n)) % 256 := Nat.or_mod_two_pow.symm

/-! ### What an operation depends on -/

theorem carryResult_congr {raw raw' : Int} {s u : State} (value : raw' = raw) (flg : u.flg = s.flg) :
    carryResult raw' u = { u with a := (carryResult raw s).a, flg := (carryResult raw s).flg } := by
  obtain ⟨frame, -⟩ := onlyAFlg_carryResult raw' u
  rw [frame, carryResult_a, carryResult_flg, carryResult_a, carryResult_flg, value, flg]

theorem borrowResult_congr {raw raw' : Int} {s u : State} (value : raw' = raw) (flg : u.flg = s.flg) :
    borrowResult raw' u = { u with a := (borrowResult raw s).a, flg := (borrowResult raw s).flg } := by
  obtain ⟨frame, -⟩ := onlyAFlg_borrowResult raw' u
  rw [frame, borrowResult_a, borrowResult_flg, borrowResult_a, borrowResult_flg, value, flg]

theorem unmaskedResult_congr {v w : Byte} {s t u : State} (h : unmaskedResult v s = .next t) (value : w = v)
    (flg : u.flg = s.flg) : unmaskedResult w u = .next { u with a := t.a, flg := t.flg } := by
  cases h
  calc unmaskedResult w u = .next { u with a := w, flg := u.flg } := rfl
    _ = .next { u with a := v, flg := s.flg } := by rw [value, flg]

theorem rotate_congr {v w : Byte} {s t u : State}
    (h : (if rotateDefined s.d then unmaskedResult v s else undefinedResult s) = .next t)
    (value : w = v) (d : u.d = s.d) (draws : u.draws = s.draws) :
    (if rotateDefined u.d then unmaskedResult w u else undefinedResult u) =
      .next { u with a := t.a, draws := t.draws } := by
  have same : rotateDefined u.d = rotateDefined s.d := by rw [d]
  rw [same]
  cases defined : rotateDefined s.d with
  | true =>
    rw [defined] at h
    cases h
    calc unmaskedResult w u = .next { u with a := w, draws := u.draws } := rfl
      _ = .next { u with a := v, draws := s.draws } := by rw [value, draws]
  | false =>
    rw [defined] at h
    cases h
    calc undefinedResult u = .next { u with a := Config.undef8 u.draws, draws := u.draws + 1 } := rfl
      _ = .next { u with a := Config.undef8 s.draws, draws := s.draws + 1 } := by rw [draws]

/-- ROL and ROR leave in A and in the count of draws what A, D and that count determine, and nothing else. -/
theorem exec_rotate_congr {op : AluOp} {s t u : State} (h : exec op.instr s = .next t)
    (rotates : op ∈ [AluOp.rol, .ror]) (a : u.a = s.a) (d : u.d = s.d) (draws : u.draws = s.draws) :
    exec op.instr u = .next { u with a := t.a, draws := t.draws } := by
  cases op with
  | rol | ror => exact rotate_congr h (by rw [a, d]) d draws
  | _ => simp at rotates

/-- Any other operation leaves in A and FLG what A, FLG and, where it uses D, D determine, and nothing else. -/
theorem exec_alu_congr {op : AluOp} {s t u : State} (h : exec op.instr s = .next t) (no : op ∉ [AluOp.rol, .ror])
    (a : u.a = s.a) (flg : u.flg = s.flg) (d : op ∉ [AluOp.inc, .dec, .not] → u.d = s.d) :
    exec op.instr u = .next { u with a := t.a, flg := t.flg } := by
  cases op with
  | rol | ror => simp at no
  | add => cases h; exact congrArg _ (carryResult_congr (by rw [a, d (by simp)]) flg)
  | inc => cases h; exact congrArg _ (carryResult_congr (by rw [a]) flg)
  | sub => cases h; exact congrArg _ (borrowResult_congr (by rw [a, d (by simp)]) flg)
  | dec => cases h; exact congrArg _ (borrowResult_congr (by rw [a]) flg)
  | cmp => cases h; simp [AluOp.instr, exec, execCmp, setFlagIf_eq, a, d, flg]
  | not => exact unmaskedResult_congr h (by rw [a]) flg
  | and | nand | or | nor | xor | xnor | shl | shr => exact unmaskedResult_congr h (by rw [a, d (by simp)]) flg

/-! ### Masking -/

theorem toNat_trunc8_emod_lt (raw : Int) : (trunc8 (raw % 16)).toNat < 16 := by
  have nibble := toNat_trunc8_emod raw
  omega

/-- The complement of a nibble in the whole cell has its upper bits set (D4). -/
theorem le_toNat_not {v : Byte} (nibble : v.toNat < 16) : 16 ≤ (~~~v).toNat := by
  rw [BitVec.toNat_not]
  omega

/-- A state from which an operation that is not masked leaves 16 or more: AND needs the bit in both cells. -/
def unmaskedExample (op : AluOp) : State :=
  { State.reset with a := 0x40#8, d := if op = .and then 0x40#8 else 0x01#8 }

theorem exec_unmaskedExample {op : AluOp}
    (unmasked : op ∈ [AluOp.not, .and, .nand, .or, .nor, .xor, .xnor, .shl, .shr, .rol, .ror]) :
    ∃ t, exec op.instr (unmaskedExample op) = .next t ∧ 16 ≤ t.a.toNat := by
  cases op with
  | add | sub | inc | dec | cmp => simp at unmasked
  | _ => exact ⟨_, rfl, by decide⟩

end Sys2Proof.Machine

open Sys2Proof Sys2Proof.Machine Sys2Proof.Claims

/-- Settles O20: NOT is one unmasked result, of the complement of A. -/
theorem notComplementsWholeCell : Obligations.NotComplementsWholeCell :=
  ⟨selectedBy_instr .not, fun s => unmaskedResult_next (BitVec.toNat_not (x := s.a)) s⟩

/-- Settles O23: a shift left is a product, and a count of 8 or more leaves no bit in the cell. -/
theorem shlShiftsByWholeCount : Obligations.ShlShiftsByWholeCount := by
  refine ⟨selectedBy_instr .shl, fun s => ⟨writeReg .a (s.a <<< s.d.toNat) s, rfl, ?_, BitVec.shiftLeft_eq_zero,
    rfl, sameMemory_of_eq rfl rfl⟩⟩
  rw [← Nat.shiftLeft_eq]
  exact BitVec.toNat_shiftLeft

/-- Settles O24: a logical shift right is a quotient, and a count of 8 or more leaves no bit in the cell. -/
theorem shrShiftsByWholeCount : Obligations.ShrShiftsByWholeCount := by
  refine ⟨selectedBy_instr .shr, fun s => ⟨writeReg .a (s.a >>> s.d.toNat) s, rfl, ?_, BitVec.ushiftRight_eq_zero,
    rfl, sameMemory_of_eq rfl rfl⟩⟩
  rw [← Nat.shiftRight_eq_div_pow]
  exact BitVec.toNat_ushiftRight ..

/-- Settles O25: ROL joins A shifted left by D and right by 4 - D, or takes a draw. -/
theorem rolRotatesOrDraws : Obligations.RolRotatesOrDraws :=
  ⟨selectedBy_instr .rol, fun s => exists_rotate_next (toNat_shiftLeft_or_ushiftRight ..) s⟩

/-- Settles O26: ROR joins A shifted right by D and left by 4 - D, or takes a draw. -/
theorem rorRotatesOrDraws : Obligations.RorRotatesOrDraws := by
  refine ⟨selectedBy_instr .ror, fun s => exists_rotate_next ?_ s⟩
  rw [BitVec.or_comm, Nat.lor_comm, toNat_shiftLeft_or_ushiftRight]

/-- Settles O27: the congruence of an operation, at the state itself, says what it leaves alone. -/
theorem aluReadsAndWritesAccumulator : Obligations.AluReadsAndWritesAccumulator := by
  refine ⟨fun P b alu => decodeUnder_of_hasOpcode alu, fun op s => ?_⟩
  obtain ⟨t, ht⟩ := exists_exec_next op.instr s
  by_cases rotates : op ∈ [AluOp.rol, .ror]
  · have frame := exec_rotate_congr ht rotates rfl rfl rfl
    rw [ht, Host.Outcome.next.injEq] at frame
    have flg : t.flg = s.flg := by rw [frame]
    refine ⟨t, ht, by rw [flg]; exact frame, sameMemory_of_eq (by rw [frame]) (by rw [frame]),
      fun no => absurd rotates no, fun _ => ⟨flg, fun u => exec_rotate_congr ht rotates⟩⟩
  · have frame := exec_alu_congr ht rotates rfl rfl fun _ => rfl
    rw [ht, Host.Outcome.next.injEq] at frame
    have draws : t.draws = s.draws := by rw [frame]
    refine ⟨t, ht, by rw [draws]; exact frame, sameMemory_of_eq (by rw [frame]) (by rw [frame]),
      fun _ => ⟨draws, fun u => exec_alu_congr ht rotates⟩, fun yes => absurd yes rotates⟩

/-- Settles O28: a result modulo 16 is a nibble, the complement of a nibble in a cell is not, and a bit above a nibble
shows every operation that does not mask. -/
theorem onlyArithmeticMasks : Obligations.OnlyArithmeticMasks := by
  refine ⟨fun op s t masked h => ?_, fun op s t complements a_lt d_lt h => ?_, fun op unmasked => ?_⟩
  · cases op with
    | add | sub | inc | dec => cases h; exact toNat_trunc8_emod_lt _
    | _ => simp at masked
  · cases op with
    | not => cases h; exact le_toNat_not a_lt
    | nand => cases h; exact le_toNat_not (by rw [BitVec.toNat_and]; exact Nat.and_lt_two_pow (n := 4) _ d_lt)
    | nor => cases h; exact le_toNat_not (by rw [BitVec.toNat_or]; exact Nat.or_lt_two_pow (n := 4) a_lt d_lt)
    | xnor => cases h; exact le_toNat_not (by rw [BitVec.toNat_xor]; exact Nat.xor_lt_two_pow (n := 4) a_lt d_lt)
    | _ => simp at complements
  · obtain ⟨t, next, le⟩ := exec_unmaskedExample unmasked
    refine ⟨unmaskedExample op, t, fun rotates => ?_, next, le⟩
    cases op with
    | rol | ror => decide
    | _ => simp at rotates
end
